-- ==== Sys2Proof/Word.lean ====
section
/-! DEFINITION. The word types of the machine (00_scope.md R13 to R17).
Every type here is a plain bit vector: what the spec shifts, masks, extends and adds. -/
namespace Sys2Proof

/-- A Word: 32 bits, with no sign of its own (R15). -/
abbrev Word := BitVec 32

/-- A Byte: 8 bits, the unit of memory (R15, R36). -/
abbrev Byte := BitVec 8

/-- A register index: the 5-bit value of an instruction field (R30, R92). -/
abbrev RegIdx := BitVec 5

end Sys2Proof
end

