-- ==== Sys2Proof/Machine/Flags.lean ====
section
/-! DEFINITION. This hardware has no flag and no condition register (R42): a comparison delivers its
result to a register or decides a branch. Its comparisons and `bool` stand here (R16). -/
namespace Sys2Proof.Machine

/-- `bool(c)`: the Word 1 if `c` holds and the Word 0 otherwise (R16). -/
def boolWord (c : Bool) : Word := if c then 1#32 else 0#32

/-- `a <s b`: signed comparison (R16). -/
def lessSigned (a b : Word) : Bool := a.slt b

/-- `a <u b`: unsigned comparison (R16). -/
def lessUnsigned (a b : Word) : Bool := a.ult b

/-- `a = b`. -/
def equalWords (a b : Word) : Bool := a == b

end Sys2Proof.Machine
end

