-- ==== Sys2Proof/Syntax.lean ====
section
/-! DEFINITION. The decoded instructions: one constructor for each row of spec/opcode_table.json.
As R100 says, the decoder extends an immediate once, so an `imm` here is already a 32-bit Word: the
sign-extended offset or operand (R94 to R96, R98), or the 20-bit literal in place (R97).
`WellFormed.lean` says which Words an encoding can give. -/
namespace Sys2Proof

/-- The six instruction formats (R91). -/
inductive Format where
  | r | i | s | b | u | j
  deriving DecidableEq, Repr

/-- A decoded instruction (R100): its mnemonic and the operands its format has. -/
inductive Instr where
  -- Register-immediate ALU (R151 to R159)
  | addi (rd rs1 : RegIdx) (imm : Word)
  | slti (rd rs1 : RegIdx) (imm : Word)
  | sltiu (rd rs1 : RegIdx) (imm : Word)
  | xori (rd rs1 : RegIdx) (imm : Word)
  | ori (rd rs1 : RegIdx) (imm : Word)
  | andi (rd rs1 : RegIdx) (imm : Word)
  | slli (rd rs1 : RegIdx) (shamt : BitVec 5)
  | srli (rd rs1 : RegIdx) (shamt : BitVec 5)
  | srai (rd rs1 : RegIdx) (shamt : BitVec 5)
  -- Register-register ALU (R171 to R180)
  | add (rd rs1 rs2 : RegIdx)
  | sub (rd rs1 rs2 : RegIdx)
  | sll (rd rs1 rs2 : RegIdx)
  | slt (rd rs1 rs2 : RegIdx)
  | sltu (rd rs1 rs2 : RegIdx)
  | xor (rd rs1 rs2 : RegIdx)
  | srl (rd rs1 rs2 : RegIdx)
  | sra (rd rs1 rs2 : RegIdx)
  | or (rd rs1 rs2 : RegIdx)
  | and (rd rs1 rs2 : RegIdx)
  -- Upper immediates (R190, R191); `imm` is `imm20` shifted left by 12
  | lui (rd : RegIdx) (imm : Word)
  | auipc (rd : RegIdx) (imm : Word)
  -- Jumps (R200, R201)
  | jal (rd : RegIdx) (imm : Word)
  | jalr (rd rs1 : RegIdx) (imm : Word)
  -- Branches (R203 to R208)
  | beq (rs1 rs2 : RegIdx) (imm : Word)
  | bne (rs1 rs2 : RegIdx) (imm : Word)
  | blt (rs1 rs2 : RegIdx) (imm : Word)
  | bge (rs1 rs2 : RegIdx) (imm : Word)
  | bltu (rs1 rs2 : RegIdx) (imm : Word)
  | bgeu (rs1 rs2 : RegIdx) (imm : Word)
  -- Loads (R221 to R225)
  | lb (rd rs1 : RegIdx) (imm : Word)
  | lh (rd rs1 : RegIdx) (imm : Word)
  | lw (rd rs1 : RegIdx) (imm : Word)
  | lbu (rd rs1 : RegIdx) (imm : Word)
  | lhu (rd rs1 : RegIdx) (imm : Word)
  -- Stores (R227 to R229): base `rs1`, data `rs2`
  | sb (rs1 rs2 : RegIdx) (imm : Word)
  | sh (rs1 rs2 : RegIdx) (imm : Word)
  | sw (rs1 rs2 : RegIdx) (imm : Word)
  /-- FENCE (R242). Its three ignored fields (`inst[31:20]`, `inst[19:15]`, `inst[11:7]`, R108) are
  kept so that encoding gives the word back; no meaning reads them. -/
  | fence (modes : BitVec 12) (rs1 rd : RegIdx)
  -- System (R240, R241)
  | ecall
  | ebreak
  deriving DecidableEq, Repr

/-- The format of an instruction's word (R101). -/
def Instr.format : Instr → Format
  | .addi _ _ _ | .slti _ _ _ | .sltiu _ _ _ | .xori _ _ _ | .ori _ _ _ | .andi _ _ _ => .i
  | .slli _ _ _ | .srli _ _ _ | .srai _ _ _ => .i
  | .add _ _ _ | .sub _ _ _ | .sll _ _ _ | .slt _ _ _ | .sltu _ _ _ => .r
  | .xor _ _ _ | .srl _ _ _ | .sra _ _ _ | .or _ _ _ | .and _ _ _ => .r
  | .lui _ _ | .auipc _ _ => .u
  | .jal _ _ => .j
  | .jalr _ _ _ => .i
  | .beq _ _ _ | .bne _ _ _ | .blt _ _ _ | .bge _ _ _ | .bltu _ _ _ | .bgeu _ _ _ => .b
  | .lb _ _ _ | .lh _ _ _ | .lw _ _ _ | .lbu _ _ _ | .lhu _ _ _ => .i
  | .sb _ _ _ | .sh _ _ _ | .sw _ _ _ => .s
  | .fence _ _ _ | .ecall | .ebreak => .i

end Sys2Proof
end

