-- ==== Sys2Proof/WellFormed.lean ====
section
/-! DEFINITION. Which instructions an encoding can express: the range of each immediate.
Register indices and shift amounts are 5-bit fields, so every value of theirs is expressible. -/
namespace Sys2Proof

/-- The immediate, read signed, fits in `n` bits. -/
def fitsSigned (n : Nat) (imm : Word) : Bool :=
  decide (-(2 ^ (n - 1) : Int) ≤ imm.toInt ∧ imm.toInt < 2 ^ (n - 1))

/-- I- and S-format immediates: −2048 .. 2047 (R94, R95). -/
def wfImm12 (imm : Word) : Bool := fitsSigned 12 imm

/-- B-format offsets: −4096 .. 4094 in steps of 2 (R96). -/
def wfImmB (imm : Word) : Bool := fitsSigned 13 imm && decide (imm.toNat % 2 = 0)

/-- J-format offsets: −1048576 .. 1048574 in steps of 2 (R98). -/
def wfImmJ (imm : Word) : Bool := fitsSigned 21 imm && decide (imm.toNat % 2 = 0)

/-- U-format immediates: bits 11..0 are zero (R97). -/
def wfImmU (imm : Word) : Bool := decide (imm.toNat % 4096 = 0)

/-- The instruction's operands are values its encoding admits. -/
def Instr.wf : Instr → Bool
  | .addi _ _ imm | .slti _ _ imm | .sltiu _ _ imm => wfImm12 imm
  | .xori _ _ imm | .ori _ _ imm | .andi _ _ imm => wfImm12 imm
  | .slli _ _ _ | .srli _ _ _ | .srai _ _ _ => true
  | .add _ _ _ | .sub _ _ _ | .sll _ _ _ | .slt _ _ _ | .sltu _ _ _ => true
  | .xor _ _ _ | .srl _ _ _ | .sra _ _ _ | .or _ _ _ | .and _ _ _ => true
  | .lui _ imm | .auipc _ imm => wfImmU imm
  | .jal _ imm => wfImmJ imm
  | .jalr _ _ imm => wfImm12 imm
  | .beq _ _ imm | .bne _ _ imm | .blt _ _ imm => wfImmB imm
  | .bge _ _ imm | .bltu _ _ imm | .bgeu _ _ imm => wfImmB imm
  | .lb _ _ imm | .lh _ _ imm | .lw _ _ imm | .lbu _ _ imm | .lhu _ _ imm => wfImm12 imm
  | .sb _ _ imm | .sh _ _ imm | .sw _ _ imm => wfImm12 imm
  | .fence _ _ _ => true
  | .ecall | .ebreak => true

end Sys2Proof
end

