-- ==== Sys2Proof/Decode.lean ====
section
/-! DEFINITION. The decoder, total on words and on bytes and rejecting by name (30_encoding.md), and
after it the encoder, written from the same format layouts. The numeric opcode, funct3 and funct7
values are the spec's, which marks them as general knowledge (D17, assumption 9). -/
namespace Sys2Proof

/-! ## Fields (R92) -/

/-- `inst[6:0]`. -/
def opcodeOf (w : Word) : BitVec 7 := w.extractLsb' 0 7
/-- `inst[11:7]`. -/
def rdOf (w : Word) : RegIdx := w.extractLsb' 7 5
/-- `inst[14:12]`. -/
def funct3Of (w : Word) : BitVec 3 := w.extractLsb' 12 3
/-- `inst[19:15]`. -/
def rs1Of (w : Word) : RegIdx := w.extractLsb' 15 5
/-- `inst[24:20]`; also the shift amount of a shift-immediate (R99). -/
def rs2Of (w : Word) : RegIdx := w.extractLsb' 20 5
/-- `inst[31:25]`. -/
def funct7Of (w : Word) : BitVec 7 := w.extractLsb' 25 7
/-- `inst[31:20]`. -/
def imm12Of (w : Word) : BitVec 12 := w.extractLsb' 20 12

/-! ## Immediates (R94 to R98), extended here once (R100) -/

/-- I-format: `sext_32(inst[31:20])` (R94). -/
def immI (w : Word) : Word := (imm12Of w).signExtend 32

/-- S-format: `sext_32({inst[31:25], inst[11:7]})` (R95). -/
def immS (w : Word) : Word := (funct7Of w ++ rdOf w).signExtend 32

/-- B-format: `sext_32({inst[31], inst[7], inst[30:25], inst[11:8], 1'b0})` (R96). -/
def immB (w : Word) : Word :=
  (w.extractLsb' 31 1 ++ w.extractLsb' 7 1 ++ w.extractLsb' 25 6 ++ w.extractLsb' 8 4 ++
    0#1).signExtend 32

/-- U-format: `{inst[31:12], 12'b0}` (R97). -/
def immU (w : Word) : Word := w.extractLsb' 12 20 ++ 0#12

/-- J-format: `sext_32({inst[31], inst[19:12], inst[20], inst[30:21], 1'b0})` (R98). -/
def immJ (w : Word) : Word :=
  (w.extractLsb' 31 1 ++ w.extractLsb' 12 8 ++ w.extractLsb' 20 1 ++ w.extractLsb' 21 10 ++
    0#1).signExtend 32

/-- The format a primary opcode alone decides; `none` where it is none of the eleven (R91, R101). -/
def formatOfOpcode (op : BitVec 7) : Option Format :=
  match op with
  | 0b0110111#7 | 0b0010111#7 => some .u
  | 0b1101111#7 => some .j
  | 0b1100111#7 | 0b0000011#7 | 0b0010011#7 | 0b0001111#7 | 0b1110011#7 => some .i
  | 0b1100011#7 => some .b
  | 0b0100011#7 => some .s
  | 0b0110011#7 => some .r
  | _ => none

/-! ## The decoder -/

/-- Why a word (or a byte sequence) is no instruction. The machine raises `IllegalInstruction` for
each of the first five. -/
inductive Reject where
  /-- `inst[6:0]` is none of the eleven primary opcodes (R111). -/
  | unknownOpcode
  /-- A funct3 or funct7 not listed for the opcode (R103 to R107, R113). -/
  | undefinedFunct
  /-- A shift-immediate with wrong upper bits (R114). -/
  | shiftUpperBits
  /-- A SYSTEM word other than ECALL and EBREAK (R109, R112). -/
  | reservedSystem
  /-- A MISC-MEM word with funct3 other than `000`, FENCE.I among them (R108, R112). -/
  | reservedMiscMem
  /-- Fewer than four bytes are given: no instruction word can be read (R90). -/
  | truncated
  deriving DecidableEq, Repr

/-- `OP-IMM` (R102, R114). The eight funct3 values are all listed: the last arm is never reached. -/
def decodeOpImm (w : Word) : Except Reject Instr :=
  match funct3Of w with
  | 0b000#3 => .ok (.addi (rdOf w) (rs1Of w) (immI w))
  | 0b010#3 => .ok (.slti (rdOf w) (rs1Of w) (immI w))
  | 0b011#3 => .ok (.sltiu (rdOf w) (rs1Of w) (immI w))
  | 0b100#3 => .ok (.xori (rdOf w) (rs1Of w) (immI w))
  | 0b110#3 => .ok (.ori (rdOf w) (rs1Of w) (immI w))
  | 0b111#3 => .ok (.andi (rdOf w) (rs1Of w) (immI w))
  | 0b001#3 =>
    if funct7Of w = 0b0000000#7 then .ok (.slli (rdOf w) (rs1Of w) (rs2Of w))
    else .error .shiftUpperBits
  | 0b101#3 =>
    if funct7Of w = 0b0000000#7 then .ok (.srli (rdOf w) (rs1Of w) (rs2Of w))
    else if funct7Of w = 0b0100000#7 then .ok (.srai (rdOf w) (rs1Of w) (rs2Of w))
    else .error .shiftUpperBits
  | _ => .error .undefinedFunct

/-- `OP` (R103, R113). -/
def decodeOp (w : Word) : Except Reject Instr :=
  if funct7Of w = 0b0000000#7 then
    match funct3Of w with
    | 0b000#3 => .ok (.add (rdOf w) (rs1Of w) (rs2Of w))
    | 0b001#3 => .ok (.sll (rdOf w) (rs1Of w) (rs2Of w))
    | 0b010#3 => .ok (.slt (rdOf w) (rs1Of w) (rs2Of w))
    | 0b011#3 => .ok (.sltu (rdOf w) (rs1Of w) (rs2Of w))
    | 0b100#3 => .ok (.xor (rdOf w) (rs1Of w) (rs2Of w))
    | 0b101#3 => .ok (.srl (rdOf w) (rs1Of w) (rs2Of w))
    | 0b110#3 => .ok (.or (rdOf w) (rs1Of w) (rs2Of w))
    | 0b111#3 => .ok (.and (rdOf w) (rs1Of w) (rs2Of w))
    | _ => .error .undefinedFunct
  else if funct7Of w = 0b0100000#7 then
    match funct3Of w with
    | 0b000#3 => .ok (.sub (rdOf w) (rs1Of w) (rs2Of w))
    | 0b101#3 => .ok (.sra (rdOf w) (rs1Of w) (rs2Of w))
    | _ => .error .undefinedFunct
  else .error .undefinedFunct

/-- `BRANCH` (R104). -/
def decodeBranch (w : Word) : Except Reject Instr :=
  match funct3Of w with
  | 0b000#3 => .ok (.beq (rs1Of w) (rs2Of w) (immB w))
  | 0b001#3 => .ok (.bne (rs1Of w) (rs2Of w) (immB w))
  | 0b100#3 => .ok (.blt (rs1Of w) (rs2Of w) (immB w))
  | 0b101#3 => .ok (.bge (rs1Of w) (rs2Of w) (immB w))
  | 0b110#3 => .ok (.bltu (rs1Of w) (rs2Of w) (immB w))
  | 0b111#3 => .ok (.bgeu (rs1Of w) (rs2Of w) (immB w))
  | _ => .error .undefinedFunct

/-- `LOAD` (R105). -/
def decodeLoad (w : Word) : Except Reject Instr :=
  match funct3Of w with
  | 0b000#3 => .ok (.lb (rdOf w) (rs1Of w) (immI w))
  | 0b001#3 => .ok (.lh (rdOf w) (rs1Of w) (immI w))
  | 0b010#3 => .ok (.lw (rdOf w) (rs1Of w) (immI w))
  | 0b100#3 => .ok (.lbu (rdOf w) (rs1Of w) (immI w))
  | 0b101#3 => .ok (.lhu (rdOf w) (rs1Of w) (immI w))
  | _ => .error .undefinedFunct

/-- `STORE` (R106). -/
def decodeStore (w : Word) : Except Reject Instr :=
  match funct3Of w with
  | 0b000#3 => .ok (.sb (rs1Of w) (rs2Of w) (immS w))
  | 0b001#3 => .ok (.sh (rs1Of w) (rs2Of w) (immS w))
  | 0b010#3 => .ok (.sw (rs1Of w) (rs2Of w) (immS w))
  | _ => .error .undefinedFunct

/-- `JALR` (R107). -/
def decodeJalr (w : Word) : Except Reject Instr :=
  if funct3Of w = 0b000#3 then .ok (.jalr (rdOf w) (rs1Of w) (immI w))
  else .error .undefinedFunct

/-- `MISC-MEM` (R108). -/
def decodeMiscMem (w : Word) : Except Reject Instr :=
  if funct3Of w = 0b000#3 then .ok (.fence (imm12Of w) (rs1Of w) (rdOf w))
  else .error .reservedMiscMem

/-- `SYSTEM`: exactly two words are legal (R109). -/
def decodeSystem (w : Word) : Except Reject Instr :=
  if w = 0x00000073#32 then .ok .ecall
  else if w = 0x00100073#32 then .ok .ebreak
  else .error .reservedSystem

/-- The decoder (R100, R101): a pure total function of the word. -/
def decode (w : Word) : Except Reject Instr :=
  match opcodeOf w with
  | 0b0110111#7 => .ok (.lui (rdOf w) (immU w))
  | 0b0010111#7 => .ok (.auipc (rdOf w) (immU w))
  | 0b1101111#7 => .ok (.jal (rdOf w) (immJ w))
  | 0b1100111#7 => decodeJalr w
  | 0b1100011#7 => decodeBranch w
  | 0b0000011#7 => decodeLoad w
  | 0b0100011#7 => decodeStore w
  | 0b0010011#7 => decodeOpImm w
  | 0b0110011#7 => decodeOp w
  | 0b0001111#7 => decodeMiscMem w
  | 0b1110011#7 => decodeSystem w
  | _ => .error .unknownOpcode

/-- The instruction word in four bytes, the first at the lowest address (R65, R90). -/
def wordOfBytes (b0 b1 b2 b3 : Byte) : Word := b3 ++ b2 ++ b1 ++ b0

/-- Byte `k` of a word, byte 0 the least significant. -/
def byteOf (v : Word) (k : Nat) : Byte := v.extractLsb' (8 * k) 8

/-- A word's bytes as the hardware stores them (R65). -/
def bytesOfWord (w : Word) : List Byte := [byteOf w 0, byteOf w 1, byteOf w 2, byteOf w 3]

/-- Decode the first instruction of a byte sequence and give the rest. -/
def decodeBytes : List Byte → Except Reject (Instr × List Byte)
  | b0 :: b1 :: b2 :: b3 :: rest =>
    match decode (wordOfBytes b0 b1 b2 b3) with
    | .ok i => .ok (i, rest)
    | .error r => .error r
  | _ => .error .truncated

/-- The word that bits `nbits - 1 .. 0` of `w` give, every bit above them 0. -/
def tableWord (nbits w : Nat) : Word := BitVec.ofNat 32 (w % 2 ^ nbits)

/-- What the decoder reads from a row's word as spec/opcode_table.json numbers its bits. -/
def decodeTableWord (nbits w : Nat) : Option Instr :=
  match decodeBytes (bytesOfWord (tableWord nbits w)) with
  | .ok (i, _) => some i
  | .error _ => none

/-! ## The encoder (R93 to R98) -/

/-- R-format (R93). -/
def encodeR (f7 : BitVec 7) (f3 : BitVec 3) (op : BitVec 7) (rd rs1 rs2 : RegIdx) : Word :=
  f7 ++ rs2 ++ rs1 ++ f3 ++ rd ++ op

/-- I-format from the 12 bits of its immediate field (R94). -/
def encodeI (f3 : BitVec 3) (op : BitVec 7) (rd rs1 : RegIdx) (imm : BitVec 12) : Word :=
  imm ++ rs1 ++ f3 ++ rd ++ op

/-- S-format (R95). -/
def encodeS (f3 : BitVec 3) (op : BitVec 7) (rs1 rs2 : RegIdx) (imm : Word) : Word :=
  imm.extractLsb' 5 7 ++ rs2 ++ rs1 ++ f3 ++ imm.extractLsb' 0 5 ++ op

/-- B-format (R96). -/
def encodeB (f3 : BitVec 3) (op : BitVec 7) (rs1 rs2 : RegIdx) (imm : Word) : Word :=
  imm.extractLsb' 12 1 ++ imm.extractLsb' 5 6 ++ rs2 ++ rs1 ++ f3 ++ imm.extractLsb' 1 4 ++
    imm.extractLsb' 11 1 ++ op

/-- U-format (R97). -/
def encodeU (op : BitVec 7) (rd : RegIdx) (imm : Word) : Word :=
  imm.extractLsb' 12 20 ++ rd ++ op

/-- J-format (R98). -/
def encodeJ (op : BitVec 7) (rd : RegIdx) (imm : Word) : Word :=
  imm.extractLsb' 20 1 ++ imm.extractLsb' 1 10 ++ imm.extractLsb' 11 1 ++ imm.extractLsb' 12 8 ++
    rd ++ op

/-- I-format instruction with a sign-extended immediate. -/
def encodeImm (f3 : BitVec 3) (op : BitVec 7) (rd rs1 : RegIdx) (imm : Word) : Word :=
  encodeI f3 op rd rs1 (imm.extractLsb' 0 12)

/-- Shift-immediate: the upper seven bits and the shift amount (R99). -/
def encodeShift (f7 : BitVec 7) (f3 : BitVec 3) (rd rs1 : RegIdx) (shamt : BitVec 5) : Word :=
  encodeR f7 f3 0b0010011#7 rd rs1 shamt

/-- The word of an instruction (R101 to R110). -/
def encode : Instr → Word
  | .addi rd rs1 imm => encodeImm 0b000#3 0b0010011#7 rd rs1 imm
  | .slti rd rs1 imm => encodeImm 0b010#3 0b0010011#7 rd rs1 imm
  | .sltiu rd rs1 imm => encodeImm 0b011#3 0b0010011#7 rd rs1 imm
  | .xori rd rs1 imm => encodeImm 0b100#3 0b0010011#7 rd rs1 imm
  | .ori rd rs1 imm => encodeImm 0b110#3 0b0010011#7 rd rs1 imm
  | .andi rd rs1 imm => encodeImm 0b111#3 0b0010011#7 rd rs1 imm
  | .slli rd rs1 shamt => encodeShift 0b0000000#7 0b001#3 rd rs1 shamt
  | .srli rd rs1 shamt => encodeShift 0b0000000#7 0b101#3 rd rs1 shamt
  | .srai rd rs1 shamt => encodeShift 0b0100000#7 0b101#3 rd rs1 shamt
  | .add rd rs1 rs2 => encodeR 0b0000000#7 0b000#3 0b0110011#7 rd rs1 rs2
  | .sub rd rs1 rs2 => encodeR 0b0100000#7 0b000#3 0b0110011#7 rd rs1 rs2
  | .sll rd rs1 rs2 => encodeR 0b0000000#7 0b001#3 0b0110011#7 rd rs1 rs2
  | .slt rd rs1 rs2 => encodeR 0b0000000#7 0b010#3 0b0110011#7 rd rs1 rs2
  | .sltu rd rs1 rs2 => encodeR 0b0000000#7 0b011#3 0b0110011#7 rd rs1 rs2
  | .xor rd rs1 rs2 => encodeR 0b0000000#7 0b100#3 0b0110011#7 rd rs1 rs2
  | .srl rd rs1 rs2 => encodeR 0b0000000#7 0b101#3 0b0110011#7 rd rs1 rs2
  | .sra rd rs1 rs2 => encodeR 0b0100000#7 0b101#3 0b0110011#7 rd rs1 rs2
  | .or rd rs1 rs2 => encodeR 0b0000000#7 0b110#3 0b0110011#7 rd rs1 rs2
  | .and rd rs1 rs2 => encodeR 0b0000000#7 0b111#3 0b0110011#7 rd rs1 rs2
  | .lui rd imm => encodeU 0b0110111#7 rd imm
  | .auipc rd imm => encodeU 0b0010111#7 rd imm
  | .jal rd imm => encodeJ 0b1101111#7 rd imm
  | .jalr rd rs1 imm => encodeImm 0b000#3 0b1100111#7 rd rs1 imm
  | .beq rs1 rs2 imm => encodeB 0b000#3 0b1100011#7 rs1 rs2 imm
  | .bne rs1 rs2 imm => encodeB 0b001#3 0b1100011#7 rs1 rs2 imm
  | .blt rs1 rs2 imm => encodeB 0b100#3 0b1100011#7 rs1 rs2 imm
  | .bge rs1 rs2 imm => encodeB 0b101#3 0b1100011#7 rs1 rs2 imm
  | .bltu rs1 rs2 imm => encodeB 0b110#3 0b1100011#7 rs1 rs2 imm
  | .bgeu rs1 rs2 imm => encodeB 0b111#3 0b1100011#7 rs1 rs2 imm
  | .lb rd rs1 imm => encodeImm 0b000#3 0b0000011#7 rd rs1 imm
  | .lh rd rs1 imm => encodeImm 0b001#3 0b0000011#7 rd rs1 imm
  | .lw rd rs1 imm => encodeImm 0b010#3 0b0000011#7 rd rs1 imm
  | .lbu rd rs1 imm => encodeImm 0b100#3 0b0000011#7 rd rs1 imm
  | .lhu rd rs1 imm => encodeImm 0b101#3 0b0000011#7 rd rs1 imm
  | .sb rs1 rs2 imm => encodeS 0b000#3 0b0100011#7 rs1 rs2 imm
  | .sh rs1 rs2 imm => encodeS 0b001#3 0b0100011#7 rs1 rs2 imm
  | .sw rs1 rs2 imm => encodeS 0b010#3 0b0100011#7 rs1 rs2 imm
  | .fence modes rs1 rd => encodeI 0b000#3 0b0001111#7 rd rs1 modes
  | .ecall => 0x00000073#32
  | .ebreak => 0x00100073#32

/-- The bytes of an instruction as the hardware stores them. -/
def encodeBytes (i : Instr) : List Byte := bytesOfWord (encode i)

end Sys2Proof
end

