-- ==== Sys2Proof/Machine/Status.lean ====
section
/-! DEFINITION. The trap kinds (60_exceptions.md R260) and the run status (10_state.md R39).
They stand before State because a parameter of Config is a function of the run status. -/
namespace Sys2Proof.Machine

/-- The six trap kinds of R260; names, not numbers (R261). -/
inductive TrapKind where
  /-- A word that does not decode (R111 to R114). -/
  | illegalInstruction
  /-- A load or store that fails the range test (R61). -/
  | memoryOutOfRange
  /-- A JAL, JALR or taken branch whose target has bit 1 set (R200 to R202). -/
  | misalignedInstruction
  /-- ECALL with `a7 ≠ 93` (R240). -/
  | unsupportedSyscall
  /-- EBREAK (R241). -/
  | breakpoint
  /-- A fetch that fails the range test (R64). -/
  | fetchOutOfRange
  deriving DecidableEq, Repr

/-- The run status (R39). Every status but `running` is final. -/
inductive RunStatus where
  /-- The next step executes an instruction. -/
  | running
  /-- The program made the exit ECALL; `code` is `a0` read as a signed 32-bit integer (R240). -/
  | exitedNormally (code : Int)
  /-- A step raised a trap (R264). -/
  | trapped (kind : TrapKind)
  /-- The step fetched the zero sentinel (R132). -/
  | terminated
  deriving DecidableEq, Repr

end Sys2Proof.Machine
end

