-- ==== Sys2Proof/Config.lean ====
section
/-! DEFINITION. What is fixed for the hardware, and the values the spec leaves open.
An `opaque` constant here has no body: no proof can see what it is. -/
namespace Sys2Proof.Config

/-- `MEM_SIZE` of `State.reset`: the spec's reference default, 1 MiB (R13, D2). DESIGN CHOICE that
reset takes the default; the size itself is a field of the memory (assumption 2). -/
def defaultMemSize : Nat := 0x00100000

/-- The largest `MEM_SIZE` the parameter table admits (R13). -/
def maxMemSize : Nat := 2 ^ 32

/-- The one recognized system-call number, compared with the whole of `a7` (R13, R240). -/
def exitSyscall : Word := 93#32

/-- `DUMP_FORMAT`: the mnemonic text a debug record shows for an instruction word. Open by D14, so a
free value (assumption 6). -/
opaque dumpMnemonic : Word → String

/-- `DUMP_ON_HALT`: whether a step that ends the run with this status emits a debug record. Open by
D14, so a free value, given for each final status on its own (assumption 7). -/
opaque dumpOnHalt : Machine.RunStatus → Bool

/-- The raw word shown by a debug record for a step whose fetch at this PC failed, if one is emitted:
no word was fetched and the spec states none, so a free value (assumption 8). -/
opaque unfetchedWord : Word → Word

end Sys2Proof.Config
end

