-- ==== Sys2Proof/Machine/State.lean ====
section
/-! DEFINITION. The state of the machine, plain data, and its value right after reset; the reasons a
step can stop. The spec's state is the tuple (register file, PC, memory) and the run status
(10_state.md R42); beside it stand the construction parameters `MEM_SIZE` and `DEBUG` (R10, R13),
which no step changes, and the debug stream emitted so far (R11, R140). -/
namespace Sys2Proof.Machine

/-- The memory `M` of `size` bytes (R36): addresses `0 .. size - 1`, `size` being `MEM_SIZE`.
`cells` lists the bytes that differ from 0, addresses strictly rising (`Memory.wf`); an unlisted
address below `size` reads 0. -/
structure Memory where
  size  : Nat
  cells : List Host.Cell
  deriving DecidableEq, Repr

/-- One record of the debug stream (R140): the pre-execution PC, the raw instruction word, the
mnemonic text and the register file after the step. -/
structure DumpRecord where
  pc       : Word
  word     : Word
  mnemonic : String
  regs     : Vector Word 32
  deriving DecidableEq, Repr

/-- The state of the block. `regs` has one slot for each of `x0 .. x31`; slot 0 is never read
(`State.readReg`) and never written (`State.writeReg`) (R31, R32, assumption 16). -/
structure State where
  regs   : Vector Word 32
  pc     : Word
  mem    : Memory
  status : RunStatus
  debug  : Bool
  dump   : List DumpRecord
  deriving DecidableEq, Repr

/-- Why the machine stops. -/
inductive Fault where
  /-- Raised by `step` only, from a final run status: there is no step from one (R131). Safe: no
  next state is claimed where the spec gives none (assumption 1). -/
  | runEnded
  deriving DecidableEq, Repr

/-- Why the model gives no meaning. -/
inductive Refusal where
  /-- Raised by an arm of `exec` for an instruction that has no meaning yet; no arm does. Safe. -/
  | notModelled (mnemonic : String)
  deriving DecidableEq, Repr

/-- What a step or a meaning answers. -/
abbrev Result := Host.Outcome State Fault Refusal

/-- The machine right after reset (R303) with no image placed and the default parameters of R13:
every register 0, PC 0, status `Running`, memory of `MEM_SIZE` zero bytes, `DEBUG` false and
nothing dumped (assumptions 2, 3 and 4). -/
def State.reset : State where
  regs   := Vector.replicate 32 0#32
  pc     := 0#32
  mem    := { size := Config.defaultMemSize, cells := [] }
  status := .running
  debug  := false
  dump   := []

end Sys2Proof.Machine
end

