-- ==== Sys2Proof/Machine/Memory.lean ====
section
/-! DEFINITION. The memory array and its byte-addressed interface (20_memory.md R60 to R66).
Byte order is decided here once: `Memory.read` composes and `Memory.store` splits little-endian. -/
namespace Sys2Proof.Machine

/-- The access widths (R68). -/
inductive Width where
  | byte
  | half
  | word
  deriving DecidableEq, Repr

/-- The bytes an access of this width moves. -/
def Width.bytes : Width → Nat
  | .byte => 1
  | .half => 2
  | .word => 4

/-- The bits an access of this width moves. -/
def Width.bits : Width → Nat
  | .byte => 8
  | .half => 16
  | .word => 32

/-- What an address below `size` that no cell lists reads as: memory above the image is 0 at reset
(R37, D3, assumption 3). -/
def Memory.unlisted : Byte := 0#8

/-- The canonical form (assumption 25): addresses strictly rising and below `size`, no listed byte equal to what an
unlisted address reads as, and a size the parameter table admits (R13, R36). -/
def Memory.wf (m : Memory) : Bool :=
  decide (m.size ≤ Config.maxMemSize) &&
    decide (m.cells.Pairwise (fun c d => c.1 < d.1)) &&
    m.cells.all (fun c => decide (c.1 < m.size) && decide (c.2 ≠ Memory.unlisted))

/-- The byte a list of cells gives an address. -/
def cellAt (a : Nat) : List Host.Cell → Byte
  | [] => Memory.unlisted
  | (k, b) :: rest => if k = a then b else cellAt a rest

/-- The cells with every cell of this address taken out. -/
def eraseCell (a : Nat) (cells : List Host.Cell) : List Host.Cell :=
  cells.filter (fun c => decide (c.1 ≠ a))

/-- The cells with one cell put in at its place in the order. -/
def insertCell (a : Nat) (b : Byte) : List Host.Cell → List Host.Cell
  | [] => [(a, b)]
  | (k, v) :: rest => if a < k then (a, b) :: (k, v) :: rest else (k, v) :: insertCell a b rest

/-- The byte at an address (R36). -/
def Memory.readByte (m : Memory) (a : Nat) : Byte := cellAt a m.cells

/-- `M[a] <- b`, in canonical form. -/
def Memory.writeByte (m : Memory) (a : Nat) (b : Byte) : Memory :=
  { m with cells := if b = Memory.unlisted then eraseCell a m.cells
                    else insertCell a b (eraseCell a m.cells) }

/-- The range test (R61): `a + n ≤ MEM_SIZE`, the sum over the naturals (D4). -/
def Memory.inRange (m : Memory) (a n : Nat) : Bool := decide (a + n ≤ m.size)

/-- `{ M[a+3], M[a+2], M[a+1], M[a] }`, the word at an address of any alignment (R62, R64, R66). -/
def Memory.readWord (m : Memory) (a : Nat) : Word :=
  wordOfBytes (m.readByte a) (m.readByte (a + 1)) (m.readByte (a + 2)) (m.readByte (a + 3))

/-- `{ M[a+n-1], ..., M[a] }`, the value part of `MemRead` (R62). -/
def Memory.read (m : Memory) (a : Nat) : (w : Width) → BitVec w.bits
  | .byte => m.readByte a
  | .half => (m.readByte (a + 1) ++ m.readByte a : BitVec 16)
  | .word => m.readWord a

/-- `for k in 0 .. n-1: M[a+k] <- v[8k+7 : 8k]`, the effect of `MemWrite` (R63). -/
def Memory.store (m : Memory) (a : Nat) (v : Word) : Nat → Memory
  | 0 => m
  | k + 1 => (m.store a v k).writeByte (a + k) (byteOf v k)

/-- Place a byte sequence from an address on (construction only, R301). -/
def Memory.place (m : Memory) (a : Nat) : List Byte → Memory
  | [] => m
  | b :: rest => (m.writeByte a b).place (a + 1) rest

end Sys2Proof.Machine
end

