-- ==== Sys2Proof/Machine/Ops.lean ====
section
/-! DEFINITION. The named operations over the state: registers, PC, memory access, fetch, trap entry
and halt. Every read and write of a piece of state goes through one of them. -/
namespace Sys2Proof.Machine

/-! ## Registers (R30 to R33) -/

/-- `x1`, the link register by convention (R33). -/
def ra : RegIdx := 1#5
/-- `x10`, the exit code of ECALL (R33, R240). -/
def a0 : RegIdx := 10#5
/-- `x17`, the system-call number of ECALL (R33, R240). -/
def a7 : RegIdx := 17#5

/-- `x[i]`: 0 for `i = 0`, else the register's Word (R31). -/
def State.readReg (s : State) (i : RegIdx) : Word :=
  if i = 0#5 then 0#32 else s.regs[i.toNat]'(i.isLt)

/-- `x[i] <- v`: no effect for `i = 0` (R32). -/
def State.writeReg (s : State) (i : RegIdx) (v : Word) : State :=
  if i = 0#5 then s else { s with regs := s.regs.set i.toNat v i.isLt }

/-- The 32 Words as register reads give them, so entry 0 is 0 (R41). -/
def State.registerFile (s : State) : Vector Word 32 :=
  Vector.ofFn fun i => s.readReg (BitVec.ofFin i)

/-! ## Program counter and run status -/

/-- `pc <- target` (R20). -/
def State.setPc (s : State) (target : Word) : State := { s with pc := target }

/-- The address of the next instruction in sequence, modulo 2^32 (R35, R137). -/
def State.nextPc (s : State) : Word := s.pc + 4#32

/-- The default PC update (R137). -/
def State.advance (s : State) : State := s.setPc s.nextPc

/-- Set the run status (R39). -/
def State.setStatus (s : State) (st : RunStatus) : State := { s with status := st }

/-- Replace the memory. -/
def State.setMem (s : State) (m : Memory) : State := { s with mem := m }

/-- Emit one debug record at the end of the stream (R140). -/
def State.addDump (s : State) (r : DumpRecord) : State := { s with dump := s.dump ++ [r] }

/-! ## Trap entry and halt -/

/-- Taking a trap (R264): the run status becomes `Trapped(K)`, and registers, memory and PC keep the
values they had at the start of the step. There is no return from a trap and no instruction for one
(R266), and no vector or handler to go to (R265). -/
def raise (k : TrapKind) (s : State) : Result := .next (s.setStatus (.trapped k))

/-- `halt(reason)` (R20): the run status becomes the final status. -/
def halt (st : RunStatus) (s : State) : Result := .next (s.setStatus st)

/-! ## Memory access (R61 to R64) -/

/-- `MemRead(addr, n)`; `none` where it raises `MemoryOutOfRange` (R62). It changes no state. -/
def State.memRead (s : State) (addr : Word) (w : Width) : Option (BitVec w.bits) :=
  if s.mem.inRange addr.toNat w.bytes then some (s.mem.read addr.toNat w) else none

/-- `MemWrite(addr, n, v)`; `none` where it raises `MemoryOutOfRange`, before any byte is written
(R63, D5). -/
def State.memWrite (s : State) (addr : Word) (w : Width) (v : Word) : Option State :=
  if s.mem.inRange addr.toNat w.bytes then some (s.setMem (s.mem.store addr.toNat v w.bytes))
  else none

/-- `Fetch(pc)`; `none` where it raises `FetchOutOfRange` (R64). It has no alignment test (R67) and
reads the memory as it is at the start of the step (R73). -/
def State.fetch (s : State) : Option Word :=
  if s.mem.inRange s.pc.toNat 4 then some (s.mem.readWord s.pc.toNat) else none

/-! ## Shared shapes of instructions -/

/-- An instruction that computes a value for `rd` and goes on in sequence: `x[rd] <- v` and
`pc <- PC + 4` (R136, R137). -/
def writeResult (rd : RegIdx) (v : Word) (s : State) : Result := .next (s.writeReg rd v).advance

/-- A load (R220): one `MemRead`, the value extended into `x[rd]`; `MemoryOutOfRange` writes nothing.
A load into `x0` still makes the access (D13). -/
def loadInto (w : Width) (extend : BitVec w.bits → Word) (rd : RegIdx) (ea : Word) (s : State) :
    Result :=
  match s.memRead ea w with
  | none => raise .memoryOutOfRange s
  | some v => writeResult rd (extend v) s

/-- A store (R226): one `MemWrite` of the low bytes of `v`; `MemoryOutOfRange` writes no byte. -/
def storeFrom (w : Width) (ea v : Word) (s : State) : Result :=
  match s.memWrite ea w v with
  | none => raise .memoryOutOfRange s
  | some t => .next t.advance

end Sys2Proof.Machine
end

