-- ==== Sys2Proof/Machine/Operands.lean ====
section
/-! DEFINITION. Every operand form the instructions have beyond a plain register or immediate:
effective addresses, transfer targets and shift amounts, all modulo 2^32 (D12). -/
namespace Sys2Proof.Machine

/-- Base plus displacement: `ea = x[rs1] + imm`, the one addressing mode (R220, R226). -/
def effectiveAddress (s : State) (rs1 : RegIdx) (imm : Word) : Word := s.readReg rs1 + imm

/-- `PC + imm`: the target of JAL and of a branch (R200, R202), and the value of AUIPC (R191). -/
def pcRelative (s : State) (imm : Word) : Word := s.pc + imm

/-- The target of JALR: `(x[rs1] + imm) & 0xFFFF_FFFE` (R201). -/
def jalrTarget (s : State) (rs1 : RegIdx) (imm : Word) : Word :=
  (s.readReg rs1 + imm) &&& 0xFFFFFFFE#32

/-- The alignment test of a transfer target: bit 1 is set (R200 to R202, C7). -/
def misaligned (target : Word) : Bool := target.getLsbD 1

/-- A register shift amount: the low 5 bits, the others ignored (R170, R173). -/
def shiftAmount (v : Word) : Nat := (v.extractLsb' 0 5).toNat

end Sys2Proof.Machine
end

