-- ==== Sys2Proof/Machine/ControlTransfer.lean ====
section
/-! DEFINITION. Jumps and branches (44_control_transfer.md R200 to R209). -/
namespace Sys2Proof.Machine

/-- A jump with link: the alignment test precedes the write of `rd` (D5), so a trapping jump leaves
`rd` and the PC unchanged; the link value is the old PC plus 4 (R200, R201). -/
def jumpAndLink (rd : RegIdx) (target : Word) (s : State) : Result :=
  if misaligned target then raise .misalignedInstruction s
  else .next ((s.writeReg rd s.nextPc).setPc target)

/-- R200. -/
def execJal (rd : RegIdx) (imm : Word) (s : State) : Result :=
  jumpAndLink rd (pcRelative s imm) s

/-- R201: the target uses the old `x[rs1]` even when `rd = rs1`. -/
def execJalr (rd rs1 : RegIdx) (imm : Word) (s : State) : Result :=
  jumpAndLink rd (jalrTarget s rs1 imm) s

/-- The common semantics of branches (R202): a branch not taken never traps. -/
def branch (taken : Bool) (imm : Word) (s : State) : Result :=
  if taken then
    if misaligned (pcRelative s imm) then raise .misalignedInstruction s
    else .next (s.setPc (pcRelative s imm))
  else .next s.advance

/-- R203. -/
def execBeq (rs1 rs2 : RegIdx) (imm : Word) (s : State) : Result :=
  branch (equalWords (s.readReg rs1) (s.readReg rs2)) imm s

/-- R204. -/
def execBne (rs1 rs2 : RegIdx) (imm : Word) (s : State) : Result :=
  branch (!equalWords (s.readReg rs1) (s.readReg rs2)) imm s

/-- R205. -/
def execBlt (rs1 rs2 : RegIdx) (imm : Word) (s : State) : Result :=
  branch (lessSigned (s.readReg rs1) (s.readReg rs2)) imm s

/-- R206. -/
def execBge (rs1 rs2 : RegIdx) (imm : Word) (s : State) : Result :=
  branch (!lessSigned (s.readReg rs1) (s.readReg rs2)) imm s

/-- R207. -/
def execBltu (rs1 rs2 : RegIdx) (imm : Word) (s : State) : Result :=
  branch (lessUnsigned (s.readReg rs1) (s.readReg rs2)) imm s

/-- R208. -/
def execBgeu (rs1 rs2 : RegIdx) (imm : Word) (s : State) : Result :=
  branch (!lessUnsigned (s.readReg rs1) (s.readReg rs2)) imm s

end Sys2Proof.Machine
end

