-- ==== Sys2Proof/Machine/LoadStore.lean ====
section
/-! DEFINITION. Loads and stores (45_load_store.md R220 to R229). -/
namespace Sys2Proof.Machine

/-- `sext_32` (R17). -/
def sext32 {n : Nat} (v : BitVec n) : Word := v.signExtend 32

/-- `zext_32` (R17). -/
def zext32 {n : Nat} (v : BitVec n) : Word := v.setWidth 32

/-- R221. -/
def execLb (rd rs1 : RegIdx) (imm : Word) (s : State) : Result :=
  loadInto .byte sext32 rd (effectiveAddress s rs1 imm) s

/-- R222. -/
def execLh (rd rs1 : RegIdx) (imm : Word) (s : State) : Result :=
  loadInto .half sext32 rd (effectiveAddress s rs1 imm) s

/-- R223. -/
def execLw (rd rs1 : RegIdx) (imm : Word) (s : State) : Result :=
  loadInto .word zext32 rd (effectiveAddress s rs1 imm) s

/-- R224. -/
def execLbu (rd rs1 : RegIdx) (imm : Word) (s : State) : Result :=
  loadInto .byte zext32 rd (effectiveAddress s rs1 imm) s

/-- R225. -/
def execLhu (rd rs1 : RegIdx) (imm : Word) (s : State) : Result :=
  loadInto .half zext32 rd (effectiveAddress s rs1 imm) s

/-- R227: bits 31..8 of `x[rs2]` are ignored. -/
def execSb (rs1 rs2 : RegIdx) (imm : Word) (s : State) : Result :=
  storeFrom .byte (effectiveAddress s rs1 imm) (s.readReg rs2) s

/-- R228. -/
def execSh (rs1 rs2 : RegIdx) (imm : Word) (s : State) : Result :=
  storeFrom .half (effectiveAddress s rs1 imm) (s.readReg rs2) s

/-- R229. -/
def execSw (rs1 rs2 : RegIdx) (imm : Word) (s : State) : Result :=
  storeFrom .word (effectiveAddress s rs1 imm) (s.readReg rs2) s

end Sys2Proof.Machine
end

