-- ==== Sys2Proof/Machine/RegisterImmediate.lean ====
section
/-! DEFINITION. Register-immediate ALU, OP-IMM (41_register_immediate.md R150 to R159). -/
namespace Sys2Proof.Machine

/-- R151. -/
def execAddi (rd rs1 : RegIdx) (imm : Word) (s : State) : Result :=
  writeResult rd (s.readReg rs1 + imm) s

/-- R152. -/
def execSlti (rd rs1 : RegIdx) (imm : Word) (s : State) : Result :=
  writeResult rd (boolWord (lessSigned (s.readReg rs1) imm)) s

/-- R153: the immediate is sign-extended first, then compared unsigned. -/
def execSltiu (rd rs1 : RegIdx) (imm : Word) (s : State) : Result :=
  writeResult rd (boolWord (lessUnsigned (s.readReg rs1) imm)) s

/-- R154. -/
def execXori (rd rs1 : RegIdx) (imm : Word) (s : State) : Result :=
  writeResult rd (s.readReg rs1 ^^^ imm) s

/-- R155. -/
def execOri (rd rs1 : RegIdx) (imm : Word) (s : State) : Result :=
  writeResult rd (s.readReg rs1 ||| imm) s

/-- R156. -/
def execAndi (rd rs1 : RegIdx) (imm : Word) (s : State) : Result :=
  writeResult rd (s.readReg rs1 &&& imm) s

/-- R157. -/
def execSlli (rd rs1 : RegIdx) (shamt : BitVec 5) (s : State) : Result :=
  writeResult rd (s.readReg rs1 <<< shamt.toNat) s

/-- R158. -/
def execSrli (rd rs1 : RegIdx) (shamt : BitVec 5) (s : State) : Result :=
  writeResult rd (s.readReg rs1 >>> shamt.toNat) s

/-- R159. -/
def execSrai (rd rs1 : RegIdx) (shamt : BitVec 5) (s : State) : Result :=
  writeResult rd ((s.readReg rs1).sshiftRight shamt.toNat) s

end Sys2Proof.Machine
end

