-- ==== Sys2Proof/Machine/RegisterRegister.lean ====
section
/-! DEFINITION. Register-register ALU, OP (42_register_register.md R170 to R181). -/
namespace Sys2Proof.Machine

/-- R171. -/
def execAdd (rd rs1 rs2 : RegIdx) (s : State) : Result :=
  writeResult rd (s.readReg rs1 + s.readReg rs2) s

/-- R172. -/
def execSub (rd rs1 rs2 : RegIdx) (s : State) : Result :=
  writeResult rd (s.readReg rs1 - s.readReg rs2) s

/-- R173. -/
def execSll (rd rs1 rs2 : RegIdx) (s : State) : Result :=
  writeResult rd (s.readReg rs1 <<< shiftAmount (s.readReg rs2)) s

/-- R174. -/
def execSlt (rd rs1 rs2 : RegIdx) (s : State) : Result :=
  writeResult rd (boolWord (lessSigned (s.readReg rs1) (s.readReg rs2))) s

/-- R175. -/
def execSltu (rd rs1 rs2 : RegIdx) (s : State) : Result :=
  writeResult rd (boolWord (lessUnsigned (s.readReg rs1) (s.readReg rs2))) s

/-- R176. -/
def execXor (rd rs1 rs2 : RegIdx) (s : State) : Result :=
  writeResult rd (s.readReg rs1 ^^^ s.readReg rs2) s

/-- R177. -/
def execSrl (rd rs1 rs2 : RegIdx) (s : State) : Result :=
  writeResult rd (s.readReg rs1 >>> shiftAmount (s.readReg rs2)) s

/-- R178. -/
def execSra (rd rs1 rs2 : RegIdx) (s : State) : Result :=
  writeResult rd ((s.readReg rs1).sshiftRight (shiftAmount (s.readReg rs2))) s

/-- R179. -/
def execOr (rd rs1 rs2 : RegIdx) (s : State) : Result :=
  writeResult rd (s.readReg rs1 ||| s.readReg rs2) s

/-- R180. -/
def execAnd (rd rs1 rs2 : RegIdx) (s : State) : Result :=
  writeResult rd (s.readReg rs1 &&& s.readReg rs2) s

end Sys2Proof.Machine
end

