-- ==== Sys2Proof/Machine/System.lean ====
section
/-! DEFINITION. System instructions and FENCE (46_system_fence.md R240 to R243). -/
namespace Sys2Proof.Machine

/-- R240: the exit call when the whole of `a7` is 93, with the PC advanced (D6), else
`UnsupportedSyscall` with nothing written. -/
def execEcall (s : State) : Result :=
  if s.readReg a7 = Config.exitSyscall then
    halt (.exitedNormally (s.readReg a0).toInt) s.advance
  else raise .unsupportedSyscall s

/-- R241. -/
def execEbreak (s : State) : Result := raise .breakpoint s

/-- R242: a no-op on a single hart; its fields are not read and `rd` is not written (D9). -/
def execFence (_modes : BitVec 12) (_rs1 _rd : RegIdx) (s : State) : Result := .next s.advance

end Sys2Proof.Machine
end

