-- ==== Sys2Proof/Machine/UpperImmediate.lean ====
section
/-! DEFINITION. Upper immediates (43_upper_immediate.md R190, R191). -/
namespace Sys2Proof.Machine

/-- R190. -/
def execLui (rd : RegIdx) (imm : Word) (s : State) : Result := writeResult rd imm s

/-- R191: `PC` is the address of this AUIPC. -/
def execAuipc (rd : RegIdx) (imm : Word) (s : State) : Result :=
  writeResult rd (pcRelative s imm) s

end Sys2Proof.Machine
end

