-- ==== Sys2Proof/Machine/Cycle.lean ====
section
/-! DEFINITION. One fetch-decode-execute cycle from a running state (40_execution_cycle.md R130 to
R137) and the debug record it emits (R140). -/
namespace Sys2Proof.Machine

/-- What a fetched word does, in the order of R263: the zero sentinel (R132), a word that does not
decode (R134), else the instruction's rule (R135). -/
def executeWord (w : Word) (s : State) : Result :=
  if w = 0#32 then halt .terminated s
  else
    match decode w with
    | .error _ => raise .illegalInstruction s
    | .ok i => exec i s

/-- The cycle: the fetch may fail first (R133). -/
def cycle (s : State) : Result :=
  match s.fetch with
  | none => raise .fetchOutOfRange s
  | some w => executeWord w s

/-- The raw word a debug record of a step from `s` shows (assumption 8 where the fetch failed). -/
def dumpWord (s : State) : Word :=
  match s.fetch with
  | some w => w
  | none => Config.unfetchedWord s.pc

/-- The debug record of a step from `s` to `t`: the PC and word before it, the register file after it
(R140, C3). -/
def dumpRecord (s t : State) : DumpRecord where
  pc       := s.pc
  word     := dumpWord s
  mnemonic := Config.dumpMnemonic (dumpWord s)
  regs     := t.registerFile

/-- Whether a step that leaves this run status emits a record: always when the run goes on, as
`DUMP_ON_HALT` says when it ends (R140, D14). -/
def emitsRecord : RunStatus → Bool
  | .running => true
  | st => Config.dumpOnHalt st

/-- The next state with the step's debug record added when `DEBUG` is true. -/
def withRecord (s t : State) : State :=
  if s.debug && emitsRecord t.status then t.addDump (dumpRecord s t) else t

/-- The step of a running state. -/
def stepRunning (s : State) : Result :=
  match cycle s with
  | .next t => .next (withRecord s t)
  | .fault f => .fault f
  | .refused r => .refused r

/-- `s` with the bytes of a word placed where the next fetch reads them, and with what that fetch
needs: a running status and a memory that reaches past the PC. -/
def placeFetchWord (s : State) (w : Word) : State :=
  { s with
    status := .running
    mem := { s.mem with size := max s.mem.size (s.pc.toNat + 4) }.store s.pc.toNat w 4 }

end Sys2Proof.Machine
end

