-- ==== Sys2Proof/Machine/Step.lean ====
section
/-! DEFINITION. The step (40_execution_cycle.md R130, R131). -/
namespace Sys2Proof.Machine

/-- One step. It is defined only from `Running`; from a final status there is no step (R131). -/
def step (s : State) : Host.Outcome State Fault Refusal :=
  match s.status with
  | .running => stepRunning s
  | .exitedNormally _ => .fault .runEnded
  | .trapped _ => .fault .runEnded
  | .terminated => .fault .runEnded

/-- `s` with an instruction word stored where `step` fetches its next instruction (assumption 5). -/
def State.withFetchWord (s : State) (nbits w : Nat) : State := placeFetchWord s (tableWord nbits w)

end Sys2Proof.Machine
end

