-- ==== Sys2Proof/Machine/Assembler.lean ====
section
/-! DEFINITION. The assembler's view of the instructions (30_encoding.md R120 to R123): ABI names,
operand order and pseudo-instructions, all general knowledge by the spec's own mark (assumption 19).
The machine reads nothing of this file. -/
namespace Sys2Proof.Machine

/-- The ABI names of `x0 .. x31`, in order (R120). `x8` is also written `fp`. -/
def abiNames : List String :=
  ["zero", "ra", "sp", "gp", "tp", "t0", "t1", "t2", "s0", "s1", "a0", "a1", "a2", "a3", "a4", "a5"] ++
  ["a6", "a7", "s2", "s3", "s4", "s5", "s6", "s7", "s8", "s9", "s10", "s11", "t3", "t4", "t5", "t6"]

/-- The ABI name of a register (R120). -/
def abiName (r : RegIdx) : String := abiNames.getD r.toNat "?"

/-! ## Operand order (R121) -/

/-- `op rd, rs1, rs2`. -/
def asmR (op : String) (rd rs1 rs2 : RegIdx) : String :=
  op ++ " " ++ abiName rd ++ ", " ++ abiName rs1 ++ ", " ++ abiName rs2

/-- `op rd, rs1, imm`. -/
def asmI (op : String) (rd rs1 : RegIdx) (imm : Int) : String :=
  op ++ " " ++ abiName rd ++ ", " ++ abiName rs1 ++ ", " ++ toString imm

/-- `op r, imm(rs1)`: a load with `r = rd`, a store with `r = rs2`. -/
def asmMem (op : String) (r rs1 : RegIdx) (imm : Word) : String :=
  op ++ " " ++ abiName r ++ ", " ++ toString imm.toInt ++ "(" ++ abiName rs1 ++ ")"

/-- `op rs1, rs2, offset`, the offset relative to the branch's own address (R123). -/
def asmB (op : String) (rs1 rs2 : RegIdx) (imm : Word) : String :=
  op ++ " " ++ abiName rs1 ++ ", " ++ abiName rs2 ++ ", " ++ toString imm.toInt

/-- `op rd, imm20`: the value of `inst[31:12]`. -/
def asmU (op : String) (rd : RegIdx) (imm : Word) : String :=
  op ++ " " ++ abiName rd ++ ", " ++ toString (imm.toNat / 4096)

/-- The assembly text of an instruction. -/
def asmText : Instr → String
  | .addi rd rs1 imm => asmI "addi" rd rs1 imm.toInt
  | .slti rd rs1 imm => asmI "slti" rd rs1 imm.toInt
  | .sltiu rd rs1 imm => asmI "sltiu" rd rs1 imm.toInt
  | .xori rd rs1 imm => asmI "xori" rd rs1 imm.toInt
  | .ori rd rs1 imm => asmI "ori" rd rs1 imm.toInt
  | .andi rd rs1 imm => asmI "andi" rd rs1 imm.toInt
  | .slli rd rs1 shamt => asmI "slli" rd rs1 shamt.toNat
  | .srli rd rs1 shamt => asmI "srli" rd rs1 shamt.toNat
  | .srai rd rs1 shamt => asmI "srai" rd rs1 shamt.toNat
  | .add rd rs1 rs2 => asmR "add" rd rs1 rs2
  | .sub rd rs1 rs2 => asmR "sub" rd rs1 rs2
  | .sll rd rs1 rs2 => asmR "sll" rd rs1 rs2
  | .slt rd rs1 rs2 => asmR "slt" rd rs1 rs2
  | .sltu rd rs1 rs2 => asmR "sltu" rd rs1 rs2
  | .xor rd rs1 rs2 => asmR "xor" rd rs1 rs2
  | .srl rd rs1 rs2 => asmR "srl" rd rs1 rs2
  | .sra rd rs1 rs2 => asmR "sra" rd rs1 rs2
  | .or rd rs1 rs2 => asmR "or" rd rs1 rs2
  | .and rd rs1 rs2 => asmR "and" rd rs1 rs2
  | .lui rd imm => asmU "lui" rd imm
  | .auipc rd imm => asmU "auipc" rd imm
  | .jal rd imm => "jal " ++ abiName rd ++ ", " ++ toString imm.toInt
  | .jalr rd rs1 imm => asmI "jalr" rd rs1 imm.toInt
  | .beq rs1 rs2 imm => asmB "beq" rs1 rs2 imm
  | .bne rs1 rs2 imm => asmB "bne" rs1 rs2 imm
  | .blt rs1 rs2 imm => asmB "blt" rs1 rs2 imm
  | .bge rs1 rs2 imm => asmB "bge" rs1 rs2 imm
  | .bltu rs1 rs2 imm => asmB "bltu" rs1 rs2 imm
  | .bgeu rs1 rs2 imm => asmB "bgeu" rs1 rs2 imm
  | .lb rd rs1 imm => asmMem "lb" rd rs1 imm
  | .lh rd rs1 imm => asmMem "lh" rd rs1 imm
  | .lw rd rs1 imm => asmMem "lw" rd rs1 imm
  | .lbu rd rs1 imm => asmMem "lbu" rd rs1 imm
  | .lhu rd rs1 imm => asmMem "lhu" rd rs1 imm
  | .sb rs1 rs2 imm => asmMem "sb" rs2 rs1 imm
  | .sh rs1 rs2 imm => asmMem "sh" rs2 rs1 imm
  | .sw rs1 rs2 imm => asmMem "sw" rs2 rs1 imm
  | .fence _ _ _ => "fence"
  | .ecall => "ecall"
  | .ebreak => "ebreak"

/-! ## Pseudo-instructions (R122) -/

/-- The pseudo-instructions of R122. `off` is a byte offset from the first instruction of the
expansion; `la` (also `lla`) takes the symbol's offset from it. -/
inductive Pseudo where
  | nop
  | li (rd : RegIdx) (imm : Word)
  | mv (rd rs : RegIdx)
  | not (rd rs : RegIdx)
  | neg (rd rs : RegIdx)
  | seqz (rd rs : RegIdx)
  | snez (rd rs : RegIdx)
  | sltz (rd rs : RegIdx)
  | sgtz (rd rs : RegIdx)
  | beqz (rs : RegIdx) (off : Word)
  | bnez (rs : RegIdx) (off : Word)
  | blez (rs : RegIdx) (off : Word)
  | bgez (rs : RegIdx) (off : Word)
  | bltz (rs : RegIdx) (off : Word)
  | bgtz (rs : RegIdx) (off : Word)
  | bgt (rs rt : RegIdx) (off : Word)
  | ble (rs rt : RegIdx) (off : Word)
  | bgtu (rs rt : RegIdx) (off : Word)
  | bleu (rs rt : RegIdx) (off : Word)
  | j (off : Word)
  | jal (off : Word)
  | jr (rs : RegIdx)
  | jalr (rs : RegIdx)
  | ret
  | call (off : Word)
  | tail (off : Word)
  | la (rd : RegIdx) (off : Word)
  | fence
  deriving DecidableEq, Repr

/-- `lo12 = sext_32(imm[11:0])` (R122). -/
def lo12 (imm : Word) : Word := (imm.extractLsb' 0 12).signExtend 32

/-- `hi20` in place, `imm − lo12`: its bits 11..0 are zero, its bits 31..12 are `hi20` (R122). -/
def hi20 (imm : Word) : Word := imm - lo12 imm

/-- The expansion of a pseudo-instruction (R122). -/
def Pseudo.expand : Pseudo → List Instr
  | .nop => [.addi 0#5 0#5 0#32]
  | .li rd imm =>
    if wfImm12 imm then [.addi rd 0#5 imm] else [.lui rd (hi20 imm), .addi rd rd (lo12 imm)]
  | .mv rd rs => [.addi rd rs 0#32]
  | .not rd rs => [.xori rd rs (-1#32)]
  | .neg rd rs => [.sub rd 0#5 rs]
  | .seqz rd rs => [.sltiu rd rs 1#32]
  | .snez rd rs => [.sltu rd 0#5 rs]
  | .sltz rd rs => [.slt rd rs 0#5]
  | .sgtz rd rs => [.slt rd 0#5 rs]
  | .beqz rs off => [.beq rs 0#5 off]
  | .bnez rs off => [.bne rs 0#5 off]
  | .blez rs off => [.bge 0#5 rs off]
  | .bgez rs off => [.bge rs 0#5 off]
  | .bltz rs off => [.blt rs 0#5 off]
  | .bgtz rs off => [.blt 0#5 rs off]
  | .bgt rs rt off => [.blt rt rs off]
  | .ble rs rt off => [.bge rt rs off]
  | .bgtu rs rt off => [.bltu rt rs off]
  | .bleu rs rt off => [.bgeu rt rs off]
  | .j off => [.jal 0#5 off]
  | .jal off => [.jal ra off]
  | .jr rs => [.jalr 0#5 rs 0#32]
  | .jalr rs => [.jalr ra rs 0#32]
  | .ret => [.jalr 0#5 ra 0#32]
  | .call off => [.auipc ra (hi20 off), .jalr ra ra (lo12 off)]
  | .tail off => [.auipc 6#5 (hi20 off), .jalr 0#5 6#5 (lo12 off)]
  | .la rd off => [.auipc rd (hi20 off), .addi rd rd (lo12 off)]
  | .fence => [.fence 0x0FF#12 0#5 0#5]

/-- The instructions of an expansion one after the other, stopping where the run ends. -/
def execList : List Instr → State → Result
  | [], s => .next s
  | i :: rest, s =>
    match exec i s with
    | .next t => if t.status = .running then execList rest t else .next t
    | .fault f => .fault f
    | .refused r => .refused r

end Sys2Proof.Machine
end

