-- ==== Sys2Proof/Machine/Construct.lean ====
section
/-! DEFINITION. Construction, the block's only reset (70_reset_and_hazards.md R300 to R303), and the
terminal record it yields at the end of a run (10_state.md R41). -/
namespace Sys2Proof.Machine

/-- Why no block is built: reported to the caller of construction, not a trap kind (R302, D15). -/
inductive ConstructFailure where
  /-- `len(IMAGE) > MEM_SIZE` (R301). -/
  | imageTooLarge
  /-- `MEM_SIZE > 2^32`, which the parameter table does not admit (R13, assumption 17). -/
  | memSizeTooLarge
  deriving DecidableEq, Repr

/-- `Construct(IMAGE, MEM_SIZE, DEBUG)` (R301): the image from address 0, zero above it, and every
other piece of state as `State.reset` has it. -/
def construct (image : List Byte) (memSize : Nat) (debug : Bool) : Except ConstructFailure State :=
  if memSize > Config.maxMemSize then .error .memSizeTooLarge
  else if image.length > memSize then .error .imageTooLarge
  else .ok { State.reset with
    mem := { size := memSize, cells := [] : Memory }.place 0 image
    debug := debug }

/-- The tag of a final status (R41). -/
inductive Reason where
  | exitedNormally
  | trapped (kind : TrapKind)
  | terminated
  deriving DecidableEq, Repr

/-- The terminal record (R41). -/
structure TerminalRecord where
  /-- The exit code, absent for a trap and for the zero sentinel (D7). -/
  exitCode       : Option Int
  reason         : Reason
  finalRegisters : Vector Word 32
  finalPc        : Word
  deriving DecidableEq, Repr

/-- The record the block reports when its run status is final; none while it runs (R41). -/
def terminalRecord (s : State) : Option TerminalRecord :=
  match s.status with
  | .running => none
  | .exitedNormally code => some ⟨some code, .exitedNormally, s.registerFile, s.pc⟩
  | .trapped k => some ⟨none, .trapped k, s.registerFile, s.pc⟩
  | .terminated => some ⟨none, .terminated, s.registerFile, s.pc⟩

end Sys2Proof.Machine
end

