-- ==== Sys2Proof/Safety.lean ====
section
/-! DEFINITION. The terms in which claims about the machine are stated: the invariant of a run, and
what an instruction changes and keeps. -/
namespace Sys2Proof.Machine

/-! ## The invariant -/

/-- An exit code is a 32-bit signed integer (R39). -/
def codeInRange : RunStatus → Bool
  | .exitedNormally code => decide (-(2 ^ 31) ≤ code ∧ code < 2 ^ 31)
  | _ => true

/-- What holds at reset and is kept by every step: the PC is a multiple of 4 (R35), an exit code is a
signed 32-bit integer (R39), and, by the model's choice of how it holds memory and registers, the
memory is in canonical form (assumption 25) and the slot of `x0` holds 0 (assumption 16). -/
abbrev State.Inv (s : State) : Prop :=
  s.mem.wf = true ∧ s.regs[0] = 0#32 ∧ s.pc.toNat % 4 = 0 ∧ codeInRange s.status = true

/-! ## Frames -/

/-- Every register reads as before. -/
def RegistersKept (s t : State) : Prop := ∀ r : RegIdx, t.readReg r = s.readReg r

/-- Every byte of memory reads as before, and the memory has the same size. -/
def MemoryKept (s t : State) : Prop :=
  t.mem.size = s.mem.size ∧ ∀ a : Nat, t.mem.readByte a = s.mem.readByte a

/-- The run status, the debug input and the debug stream are as before. -/
def ControlKept (s t : State) : Prop :=
  t.status = s.status ∧ t.debug = s.debug ∧ t.dump = s.dump

/-- From `s` to `t` only `x[rd]` changes, to `v` (nothing where `rd` is `x0`, which reads 0), and the
PC becomes `pc'`. -/
def RegisterEffect (s t : State) (rd : RegIdx) (v pc' : Word) : Prop :=
  (∀ r : RegIdx, t.readReg r = if r = 0#5 then 0#32 else if r = rd then v else s.readReg r) ∧
    t.pc = pc' ∧ MemoryKept s t ∧ ControlKept s t

/-- From `s` to `t` only the PC changes, to `pc'`. -/
def PcEffect (s t : State) (pc' : Word) : Prop :=
  RegistersKept s t ∧ t.pc = pc' ∧ MemoryKept s t ∧ ControlKept s t

/-- From `s` to `t` the `n` bytes from address `a` become the low bytes of `v`, least significant
first, and the PC advances by 4; every other byte reads as before. -/
def StoreEffect (s t : State) (a n : Nat) (v : Word) : Prop :=
  (∀ k : Nat, k < n → t.mem.readByte (a + k) = v.extractLsb' (8 * k) 8) ∧
    (∀ b : Nat, b < a ∨ a + n ≤ b → t.mem.readByte b = s.mem.readByte b) ∧
    t.mem.size = s.mem.size ∧ t.pc = s.pc + 4#32 ∧ RegistersKept s t ∧ ControlKept s t

/-- The instruction transfers control when it completes: a jump or a branch. -/
def transfersControl : Instr → Bool
  | .jal _ _ | .jalr _ _ _ => true
  | .beq _ _ _ | .bne _ _ _ | .blt _ _ _ | .bge _ _ _ | .bltu _ _ _ | .bgeu _ _ _ => true
  | .addi _ _ _ | .slti _ _ _ | .sltiu _ _ _ | .xori _ _ _ | .ori _ _ _ | .andi _ _ _ => false
  | .slli _ _ _ | .srli _ _ _ | .srai _ _ _ => false
  | .add _ _ _ | .sub _ _ _ | .sll _ _ _ | .slt _ _ _ | .sltu _ _ _ => false
  | .xor _ _ _ | .srl _ _ _ | .sra _ _ _ | .or _ _ _ | .and _ _ _ => false
  | .lui _ _ | .auipc _ _ => false
  | .lb _ _ _ | .lh _ _ _ | .lw _ _ _ | .lbu _ _ _ | .lhu _ _ _ => false
  | .sb _ _ _ | .sh _ _ _ | .sw _ _ _ => false
  | .fence _ _ _ | .ecall | .ebreak => false

/-- The instruction is a store. -/
def isStore : Instr → Bool
  | .sb _ _ _ | .sh _ _ _ | .sw _ _ _ => true
  | .addi _ _ _ | .slti _ _ _ | .sltiu _ _ _ | .xori _ _ _ | .ori _ _ _ | .andi _ _ _ => false
  | .slli _ _ _ | .srli _ _ _ | .srai _ _ _ => false
  | .add _ _ _ | .sub _ _ _ | .sll _ _ _ | .slt _ _ _ | .sltu _ _ _ => false
  | .xor _ _ _ | .srl _ _ _ | .sra _ _ _ | .or _ _ _ | .and _ _ _ => false
  | .lui _ _ | .auipc _ _ => false
  | .jal _ _ | .jalr _ _ _ => false
  | .beq _ _ _ | .bne _ _ _ | .blt _ _ _ | .bge _ _ _ | .bltu _ _ _ | .bgeu _ _ _ => false
  | .lb _ _ _ | .lh _ _ _ | .lw _ _ _ | .lbu _ _ _ | .lhu _ _ _ => false
  | .fence _ _ _ | .ecall | .ebreak => false

/-- The destination register of the instruction, for the formats that have one whose write-back R32
names. -/
def destination : Instr → Option RegIdx
  | .addi rd _ _ | .slti rd _ _ | .sltiu rd _ _ | .xori rd _ _ | .ori rd _ _ | .andi rd _ _ => some rd
  | .slli rd _ _ | .srli rd _ _ | .srai rd _ _ => some rd
  | .add rd _ _ | .sub rd _ _ | .sll rd _ _ | .slt rd _ _ | .sltu rd _ _ => some rd
  | .xor rd _ _ | .srl rd _ _ | .sra rd _ _ | .or rd _ _ | .and rd _ _ => some rd
  | .lui rd _ | .auipc rd _ | .jal rd _ | .jalr rd _ _ => some rd
  | .lb rd _ _ | .lh rd _ _ | .lw rd _ _ | .lbu rd _ _ | .lhu rd _ _ => some rd
  | .beq _ _ _ | .bne _ _ _ | .blt _ _ _ | .bge _ _ _ | .bltu _ _ _ | .bgeu _ _ _ => none
  | .sb _ _ _ | .sh _ _ _ | .sw _ _ _ => none
  | .fence _ _ _ | .ecall | .ebreak => none

end Sys2Proof.Machine
end

