-- ==== Sys2Proof/Certificates/Slice0/Obligations.lean ====
section
/-! DEFINITION. The statements for the provers, and the terms they are stated in. Each formalises the
rules its docstring names; what a value is, is said here over Nat and Int as R15 to R17 define it, not
with the model's own helpers. -/
namespace Sys2Proof.Claims
open Sys2Proof Sys2Proof.Machine

/-! ## Terms: words and steps -/

/-- The four bytes from an address, little-endian, as one Word (R62, R65). -/
def wordAt (m : Memory) (a : Nat) : Word :=
  m.readByte (a + 3) ++ m.readByte (a + 2) ++ m.readByte (a + 1) ++ m.readByte a

/-- The running state `s` fetches the word `w`. -/
def Fetches (s : State) (w : Word) : Prop :=
  s.pc.toNat + 4 ≤ s.mem.size ∧ wordAt s.mem s.pc.toNat = w

/-- `u` is `t`, or, with `DEBUG` true, `t` with one debug record added at the end of its stream. -/
def SameButDump (s t u : State) : Prop :=
  u = t ∨ (s.debug = true ∧ ∃ d, u = { t with dump := t.dump ++ [d] })

/-- A step from `s` ends the run with this status and changes nothing else. -/
def StepEnds (s : State) (st : RunStatus) : Prop :=
  ∃ u, step s = .next u ∧ SameButDump s { s with status := st } u

/-- Every word with this opcode and funct3 decodes to the I-format instruction its fields give, the
immediate sign-extended (R92, R94). -/
def DecodesI (op : BitVec 7) (f3 : BitVec 3) (mk : RegIdx → RegIdx → Word → Instr) : Prop :=
  ∀ w : Word, w.extractLsb' 0 7 = op → w.extractLsb' 12 3 = f3 →
    decode w =
      .ok (mk (w.extractLsb' 7 5) (w.extractLsb' 15 5) ((w.extractLsb' 20 12).signExtend 32))

/-- The same for an I-format instruction whose immediate is a shift amount under fixed upper bits
(R99). -/
def DecodesShift (f7 : BitVec 7) (f3 : BitVec 3) (mk : RegIdx → RegIdx → BitVec 5 → Instr) : Prop :=
  ∀ w : Word, w.extractLsb' 0 7 = 0b0010011#7 → w.extractLsb' 12 3 = f3 →
    w.extractLsb' 25 7 = f7 →
    decode w = .ok (mk (w.extractLsb' 7 5) (w.extractLsb' 15 5) (w.extractLsb' 20 5))

/-- The same for an R-format instruction of opcode OP (R93). -/
def DecodesR (f7 : BitVec 7) (f3 : BitVec 3) (mk : RegIdx → RegIdx → RegIdx → Instr) : Prop :=
  ∀ w : Word, w.extractLsb' 0 7 = 0b0110011#7 → w.extractLsb' 12 3 = f3 →
    w.extractLsb' 25 7 = f7 →
    decode w = .ok (mk (w.extractLsb' 7 5) (w.extractLsb' 15 5) (w.extractLsb' 20 5))

/-- The same for a store, `mk rs1 rs2 imm` (R95). -/
def DecodesS (f3 : BitVec 3) (mk : RegIdx → RegIdx → Word → Instr) : Prop :=
  ∀ w : Word, w.extractLsb' 0 7 = 0b0100011#7 → w.extractLsb' 12 3 = f3 →
    decode w =
      .ok (mk (w.extractLsb' 15 5) (w.extractLsb' 20 5)
        ((w.extractLsb' 25 7 ++ w.extractLsb' 7 5).signExtend 32))

/-- The same for a branch, `mk rs1 rs2 imm` (R96). -/
def DecodesB (f3 : BitVec 3) (mk : RegIdx → RegIdx → Word → Instr) : Prop :=
  ∀ w : Word, w.extractLsb' 0 7 = 0b1100011#7 → w.extractLsb' 12 3 = f3 →
    decode w =
      .ok (mk (w.extractLsb' 15 5) (w.extractLsb' 20 5)
        ((w.extractLsb' 31 1 ++ w.extractLsb' 7 1 ++ w.extractLsb' 25 6 ++ w.extractLsb' 8 4 ++
          0#1).signExtend 32))

/-- The decoder rejects the word. -/
def Rejected (w : Word) : Prop := ∃ r, decode w = .error r

/-- The word raises `IllegalInstruction`: the decoder rejects it, and the step of every running state
that fetches it is that trap (the zero word is the sentinel instead, R132). -/
def Illegal (w : Word) : Prop :=
  Rejected w ∧ (w ≠ 0#32 → ∀ s : State, s.status = .running → Fetches s w →
    StepEnds s (.trapped .illegalInstruction))

/-! ## Terms: the opcode table -/

/-- The mask of the instruction's row of spec/opcode_table.json. -/
def rowMask : Instr → Word
  | .addi _ _ _ | .slti _ _ _ | .sltiu _ _ _ | .xori _ _ _ | .ori _ _ _ => 0x0000707f#32
  | .andi _ _ _ | .jalr _ _ _ | .beq _ _ _ | .bne _ _ _ | .blt _ _ _ => 0x0000707f#32
  | .bge _ _ _ | .bltu _ _ _ | .bgeu _ _ _ | .lb _ _ _ | .lh _ _ _ => 0x0000707f#32
  | .lw _ _ _ | .lbu _ _ _ | .lhu _ _ _ | .sb _ _ _ | .sh _ _ _ => 0x0000707f#32
  | .sw _ _ _ | .fence _ _ _ => 0x0000707f#32
  | .slli _ _ _ | .srli _ _ _ | .srai _ _ _ | .add _ _ _ | .sub _ _ _ => 0xfe00707f#32
  | .sll _ _ _ | .slt _ _ _ | .sltu _ _ _ | .xor _ _ _ | .srl _ _ _ => 0xfe00707f#32
  | .sra _ _ _ | .or _ _ _ | .and _ _ _ => 0xfe00707f#32
  | .lui _ _ | .auipc _ _ | .jal _ _ => 0x0000007f#32
  | .ecall | .ebreak => 0xffffffff#32

/-- The match of the instruction's row of spec/opcode_table.json. -/
def rowMatch : Instr → Word
  | .addi _ _ _ => 0x00000013#32
  | .slti _ _ _ => 0x00002013#32
  | .sltiu _ _ _ => 0x00003013#32
  | .xori _ _ _ => 0x00004013#32
  | .ori _ _ _ => 0x00006013#32
  | .andi _ _ _ => 0x00007013#32
  | .slli _ _ _ => 0x00001013#32
  | .srli _ _ _ => 0x00005013#32
  | .srai _ _ _ => 0x40005013#32
  | .add _ _ _ => 0x00000033#32
  | .sub _ _ _ => 0x40000033#32
  | .sll _ _ _ => 0x00001033#32
  | .slt _ _ _ => 0x00002033#32
  | .sltu _ _ _ => 0x00003033#32
  | .xor _ _ _ => 0x00004033#32
  | .srl _ _ _ => 0x00005033#32
  | .sra _ _ _ => 0x40005033#32
  | .or _ _ _ => 0x00006033#32
  | .and _ _ _ => 0x00007033#32
  | .lui _ _ => 0x00000037#32
  | .auipc _ _ => 0x00000017#32
  | .jal _ _ => 0x0000006F#32
  | .jalr _ _ _ => 0x00000067#32
  | .beq _ _ _ => 0x00000063#32
  | .bne _ _ _ => 0x00001063#32
  | .blt _ _ _ => 0x00004063#32
  | .bge _ _ _ => 0x00005063#32
  | .bltu _ _ _ => 0x00006063#32
  | .bgeu _ _ _ => 0x00007063#32
  | .lb _ _ _ => 0x00000003#32
  | .lh _ _ _ => 0x00001003#32
  | .lw _ _ _ => 0x00002003#32
  | .lbu _ _ _ => 0x00004003#32
  | .lhu _ _ _ => 0x00005003#32
  | .sb _ _ _ => 0x00000023#32
  | .sh _ _ _ => 0x00001023#32
  | .sw _ _ _ => 0x00002023#32
  | .fence _ _ _ => 0x0000000F#32
  | .ecall => 0x00000073#32
  | .ebreak => 0x00100073#32

/-! ## Terms: values (R15 to R17) -/

/-- Sum modulo 2^32. -/
def sum (a b : Word) : Word := BitVec.ofNat 32 (a.toNat + b.toNat)
/-- Difference modulo 2^32. -/
def difference (a b : Word) : Word := BitVec.ofInt 32 (a.toInt - b.toInt)
/-- 1 if less, read signed, else 0. -/
def signedLess (a b : Word) : Word := if a.toInt < b.toInt then 1#32 else 0#32
/-- 1 if less, read unsigned, else 0. -/
def unsignedLess (a b : Word) : Word := if a.toNat < b.toNat then 1#32 else 0#32
/-- Shift left by `k`, filling zeros: bits past bit 31 are lost. -/
def shiftLeft (a : Word) (k : Nat) : Word := BitVec.ofNat 32 (a.toNat * 2 ^ k)
/-- Shift right by `k`, filling zeros. -/
def shiftRightLogical (a : Word) (k : Nat) : Word := BitVec.ofNat 32 (a.toNat / 2 ^ k)
/-- Shift right by `k`, filling copies of bit 31: the floor of the signed quotient. -/
def shiftRightArithmetic (a : Word) (k : Nat) : Word := BitVec.ofInt 32 (a.toInt / 2 ^ k)

/-! ## Terms: effects -/

/-- From every state, `mk rd rs1 imm` answers a next state in which only `x[rd]` and the PC have
changed: `x[rd]` to `f x[rs1] imm` of the old state, the PC to the next address in sequence. -/
def ComputesImm {α : Type} (mk : RegIdx → RegIdx → α → Instr) (f : Word → α → Word) : Prop :=
  ∀ (rd rs1 : RegIdx) (imm : α) (s : State), ∃ t, exec (mk rd rs1 imm) s = .next t ∧
    RegisterEffect s t rd (f (s.readReg rs1) imm) (s.pc + 4#32)

/-- The same for `mk rd rs1 rs2`, with `f x[rs1] x[rs2]` of the old state. -/
def ComputesReg (mk : RegIdx → RegIdx → RegIdx → Instr) (f : Word → Word → Word) : Prop :=
  ∀ (rd rs1 rs2 : RegIdx) (s : State), ∃ t, exec (mk rd rs1 rs2) s = .next t ∧
    RegisterEffect s t rd (f (s.readReg rs1) (s.readReg rs2)) (s.pc + 4#32)

/-- A trap as R264 has it: only the run status changes. -/
def Traps (i : Instr) (s : State) (k : TrapKind) : Prop :=
  exec i s = .next { s with status := .trapped k }

/-- A branch (R202): not taken it goes on in sequence whatever its offset; taken to a target with bit
1 clear it goes there; taken to a target with bit 1 set it traps. It writes no register and no
memory. -/
def BranchesWhen (mk : RegIdx → RegIdx → Word → Instr) (cond : Word → Word → Prop) : Prop :=
  ∀ (rs1 rs2 : RegIdx) (imm : Word) (s : State),
    (¬ cond (s.readReg rs1) (s.readReg rs2) →
      ∃ t, exec (mk rs1 rs2 imm) s = .next t ∧ PcEffect s t (s.pc + 4#32)) ∧
    (cond (s.readReg rs1) (s.readReg rs2) → (s.pc + imm).getLsbD 1 = false →
      ∃ t, exec (mk rs1 rs2 imm) s = .next t ∧ PcEffect s t (s.pc + imm)) ∧
    (cond (s.readReg rs1) (s.readReg rs2) → (s.pc + imm).getLsbD 1 = true →
      Traps (mk rs1 rs2 imm) s .misalignedInstruction)

/-- A load of `n` bytes (R220): in range it writes `value` of the memory and the effective address
into `x[rd]`; out of range it traps. -/
def Loads (mk : RegIdx → RegIdx → Word → Instr) (n : Nat) (value : Memory → Nat → Word) : Prop :=
  ∀ (rd rs1 : RegIdx) (imm : Word) (s : State) (a : Nat), (s.readReg rs1 + imm).toNat = a →
    (a + n ≤ s.mem.size →
      ∃ t, exec (mk rd rs1 imm) s = .next t ∧
        RegisterEffect s t rd (value s.mem a) (s.pc + 4#32)) ∧
    (s.mem.size < a + n → Traps (mk rd rs1 imm) s .memoryOutOfRange)

/-- A store of `n` bytes (R226): in range the low bytes of `x[rs2]` go to the effective address and
every other byte reads as before; out of range it traps and no byte is written. -/
def Stores (mk : RegIdx → RegIdx → Word → Instr) (n : Nat) : Prop :=
  ∀ (rs1 rs2 : RegIdx) (imm : Word) (s : State) (a : Nat), (s.readReg rs1 + imm).toNat = a →
    (a + n ≤ s.mem.size →
      ∃ t, exec (mk rs1 rs2 imm) s = .next t ∧ StoreEffect s t a n (s.readReg rs2)) ∧
    (s.mem.size < a + n → Traps (mk rs1 rs2 imm) s .memoryOutOfRange)

/-! ## Terms: what an instruction reaches -/

/-- Where the instruction transfers control from this state; none where it goes on in sequence. -/
def transferTarget (s : State) : Instr → Option Word
  | .jal _ imm => some (s.pc + imm)
  | .jalr _ rs1 imm => some ((s.readReg rs1 + imm) &&& 0xFFFFFFFE#32)
  | .beq rs1 rs2 imm => if s.readReg rs1 = s.readReg rs2 then some (s.pc + imm) else none
  | .bne rs1 rs2 imm => if s.readReg rs1 = s.readReg rs2 then none else some (s.pc + imm)
  | .blt rs1 rs2 imm =>
    if (s.readReg rs1).toInt < (s.readReg rs2).toInt then some (s.pc + imm) else none
  | .bge rs1 rs2 imm =>
    if (s.readReg rs1).toInt < (s.readReg rs2).toInt then none else some (s.pc + imm)
  | .bltu rs1 rs2 imm =>
    if (s.readReg rs1).toNat < (s.readReg rs2).toNat then some (s.pc + imm) else none
  | .bgeu rs1 rs2 imm =>
    if (s.readReg rs1).toNat < (s.readReg rs2).toNat then none else some (s.pc + imm)
  | _ => none

/-- The first address and the number of bytes of the instruction's data access; none where it makes
no access (R68). -/
def dataAccess (s : State) : Instr → Option (Nat × Nat)
  | .lb _ rs1 imm | .lbu _ rs1 imm | .sb rs1 _ imm => some ((s.readReg rs1 + imm).toNat, 1)
  | .lh _ rs1 imm | .lhu _ rs1 imm | .sh rs1 _ imm => some ((s.readReg rs1 + imm).toNat, 2)
  | .lw _ rs1 imm | .sw rs1 _ imm => some ((s.readReg rs1 + imm).toNat, 4)
  | _ => none

/-- The running state `s` fetches a word that decodes to `i`. -/
def Runs (s : State) (i : Instr) : Prop :=
  s.status = .running ∧ ∃ w, Fetches s w ∧ decode w = .ok i

end Sys2Proof.Claims

open Sys2Proof Sys2Proof.Machine Sys2Proof.Claims

/-! ## Encoding and decoding -/

/-- R93 to R99, R101: no operand bit is dropped, for every instruction and every operand value its
encoding admits. -/
def Obligations.DecodeOfEncodeIsTheInstruction : Prop :=
  ∀ i : Instr, i.wf = true → decode (encode i) = .ok i

/-- R100, R116: every word that decodes is the encoding of the well-formed instruction it decodes to,
so that no two words decode to one instruction. -/
def Obligations.EncodeOfDecodeIsTheWord : Prop :=
  ∀ (w : Word) (i : Instr), decode w = .ok i → i.wf = true ∧ encode i = w

/-- spec/opcode_table.json: a word decodes to an instruction exactly when it matches that
instruction's row, and then to an instruction of that row. -/
def Obligations.DecoderFollowsTheOpcodeTable : Prop :=
  (∀ (w : Word) (i : Instr), decode w = .ok i → w &&& rowMask i = rowMatch i) ∧
  (∀ (w : Word) (i : Instr), w &&& rowMask i = rowMatch i →
    ∃ j, decode w = .ok j ∧ rowMask j = rowMask i ∧ rowMatch j = rowMatch i)

/-- R111: a word of none of the eleven primary opcodes raises `IllegalInstruction`, so every word whose
low two bits are not `11` does. -/
def Obligations.UnrecognizedOpcodesAreRejected : Prop :=
  (∀ w : Word, w.extractLsb' 0 7 ∉ [0b0110111#7, 0b0010111#7, 0b1101111#7, 0b1100111#7,
      0b1100011#7, 0b0000011#7, 0b0100011#7, 0b0010011#7, 0b0110011#7, 0b0001111#7,
      0b1110011#7] → Illegal w) ∧
  (∀ w : Word, w.extractLsb' 0 2 ≠ 0b11#2 → Illegal w)

/-- R109, R112: of the SYSTEM words exactly two are legal, and of the MISC-MEM words none with funct3
other than `000`, FENCE.I among them. -/
def Obligations.SystemWordsAreExactlyTwo : Prop :=
  (∀ w : Word, w.extractLsb' 0 7 = 0b1110011#7 →
    (w = 0x00000073#32 → decode w = .ok .ecall) ∧ (w = 0x00100073#32 → decode w = .ok .ebreak) ∧
    (w ≠ 0x00000073#32 → w ≠ 0x00100073#32 → Illegal w)) ∧
  (∀ w : Word, w.extractLsb' 0 7 = 0b0001111#7 → w.extractLsb' 12 3 ≠ 0b000#3 → Illegal w)

/-- R103 to R107, R113: the combinations of OP, BRANCH, LOAD, STORE and JALR that no instruction has
are rejected. -/
def Obligations.UndefinedFunctCombinationsAreRejected : Prop :=
  (∀ w : Word, w.extractLsb' 0 7 = 0b0110011#7 →
    w.extractLsb' 25 7 ≠ 0b0000000#7 →
    ¬ (w.extractLsb' 25 7 = 0b0100000#7 ∧ w.extractLsb' 12 3 ∈ [0b000#3, 0b101#3]) →
    Illegal w) ∧
  (∀ w : Word, w.extractLsb' 0 7 = 0b1100011#7 → w.extractLsb' 12 3 ∈ [0b010#3, 0b011#3] →
    Illegal w) ∧
  (∀ w : Word, w.extractLsb' 0 7 = 0b0000011#7 →
    w.extractLsb' 12 3 ∈ [0b011#3, 0b110#3, 0b111#3] → Illegal w) ∧
  (∀ w : Word, w.extractLsb' 0 7 = 0b0100011#7 →
    w.extractLsb' 12 3 ∉ [0b000#3, 0b001#3, 0b010#3] → Illegal w) ∧
  (∀ w : Word, w.extractLsb' 0 7 = 0b1100111#7 → w.extractLsb' 12 3 ≠ 0b000#3 → Illegal w)

/-- A word of each family written out from the spec's encodings and worked examples. -/
def Obligations.SampleWordsDecode : Prop :=
  decode 0xFFF2A513#32 = .ok (.slti 10#5 5#5 0xFFFFFFFF#32) ∧
  decode 0x4042D513#32 = .ok (.srai 10#5 5#5 4#5) ∧
  decode 0x40628533#32 = .ok (.sub 10#5 5#5 6#5) ∧
  decode 0xFFFFF517#32 = .ok (.auipc 10#5 0xFFFFF000#32) ∧
  decode 0xF01FF0EF#32 = .ok (.jal 1#5 0xFFFFFF00#32) ∧
  decode 0x008282E7#32 = .ok (.jalr 5#5 5#5 8#32) ∧
  decode 0xFE62CCE3#32 = .ok (.blt 5#5 6#5 0xFFFFFFF8#32) ∧
  decode 0x0012D503#32 = .ok (.lhu 10#5 5#5 1#32) ∧
  decode 0xFEC58FA3#32 = .ok (.sb 11#5 12#5 0xFFFFFFFF#32) ∧
  decode 0x0FF0000F#32 = .ok (.fence 0x0FF#12 0#5 0#5)

/-! ## Register-immediate ALU -/

/-- R151, R152, R153: encoding and effect of ADDI, SLTI, SLTIU. -/
def Obligations.ImmediateAddAndCompare : Prop :=
  (DecodesI 0b0010011#7 0b000#3 .addi ∧ ComputesImm .addi sum) ∧
  (DecodesI 0b0010011#7 0b010#3 .slti ∧ ComputesImm .slti signedLess) ∧
  (DecodesI 0b0010011#7 0b011#3 .sltiu ∧ ComputesImm .sltiu unsignedLess)

/-- R154, R155, R156: encoding and effect of XORI, ORI, ANDI. -/
def Obligations.ImmediateLogic : Prop :=
  (DecodesI 0b0010011#7 0b100#3 .xori ∧ ComputesImm .xori (fun a b => a ^^^ b)) ∧
  (DecodesI 0b0010011#7 0b110#3 .ori ∧ ComputesImm .ori (fun a b => a ||| b)) ∧
  (DecodesI 0b0010011#7 0b111#3 .andi ∧ ComputesImm .andi (fun a b => a &&& b))

/-- R114, R157, R158, R159: encoding and effect of SLLI, SRLI, SRAI, and the words with their funct3 and
other upper bits, which are rejected. -/
def Obligations.ImmediateShifts : Prop :=
  (DecodesShift 0b0000000#7 0b001#3 .slli ∧
    ComputesImm .slli (fun a k => shiftLeft a k.toNat) ∧
    ∀ w : Word, w.extractLsb' 0 7 = 0b0010011#7 → w.extractLsb' 12 3 = 0b001#3 →
      w.extractLsb' 25 7 ≠ 0b0000000#7 → Illegal w) ∧
  (DecodesShift 0b0000000#7 0b101#3 .srli ∧
    ComputesImm .srli (fun a k => shiftRightLogical a k.toNat) ∧
    ∀ w : Word, w.extractLsb' 0 7 = 0b0010011#7 → w.extractLsb' 12 3 = 0b101#3 →
      w.extractLsb' 25 7 ∉ [0b0000000#7, 0b0100000#7] → Illegal w) ∧
  (DecodesShift 0b0100000#7 0b101#3 .srai ∧
    ComputesImm .srai (fun a k => shiftRightArithmetic a k.toNat))

/-! ## Register-register ALU -/

/-- R171, R172: encoding and effect of ADD and SUB. -/
def Obligations.RegisterAddAndSubtract : Prop :=
  (DecodesR 0b0000000#7 0b000#3 .add ∧ ComputesReg .add sum) ∧
  (DecodesR 0b0100000#7 0b000#3 .sub ∧ ComputesReg .sub difference)

/-- R174, R175: encoding and effect of SLT and SLTU. -/
def Obligations.RegisterCompare : Prop :=
  (DecodesR 0b0000000#7 0b010#3 .slt ∧ ComputesReg .slt signedLess) ∧
  (DecodesR 0b0000000#7 0b011#3 .sltu ∧ ComputesReg .sltu unsignedLess)

/-- R176, R179, R180: encoding and effect of XOR, OR, AND. -/
def Obligations.RegisterLogic : Prop :=
  (DecodesR 0b0000000#7 0b100#3 .xor ∧ ComputesReg .xor (fun a b => a ^^^ b)) ∧
  (DecodesR 0b0000000#7 0b110#3 .or ∧ ComputesReg .or (fun a b => a ||| b)) ∧
  (DecodesR 0b0000000#7 0b111#3 .and ∧ ComputesReg .and (fun a b => a &&& b))

/-- R173, R177, R178: encoding and effect of SLL, SRL, SRA, the shift amount being `x[rs2]` modulo
32. -/
def Obligations.RegisterShifts : Prop :=
  (DecodesR 0b0000000#7 0b001#3 .sll ∧
    ComputesReg .sll (fun a b => shiftLeft a (b.toNat % 32))) ∧
  (DecodesR 0b0000000#7 0b101#3 .srl ∧
    ComputesReg .srl (fun a b => shiftRightLogical a (b.toNat % 32))) ∧
  (DecodesR 0b0100000#7 0b101#3 .sra ∧
    ComputesReg .sra (fun a b => shiftRightArithmetic a (b.toNat % 32)))

/-! ## Upper immediates -/

/-- R190, R191: encoding and effect of LUI and AUIPC. -/
def Obligations.UpperImmediates : Prop :=
  (∀ w : Word, w.extractLsb' 0 7 = 0b0110111#7 →
    decode w = .ok (.lui (w.extractLsb' 7 5) (w.extractLsb' 12 20 ++ 0#12))) ∧
  (∀ w : Word, w.extractLsb' 0 7 = 0b0010111#7 →
    decode w = .ok (.auipc (w.extractLsb' 7 5) (w.extractLsb' 12 20 ++ 0#12))) ∧
  (∀ (rd : RegIdx) (imm : Word) (s : State), ∃ t, exec (.lui rd imm) s = .next t ∧
    RegisterEffect s t rd imm (s.pc + 4#32)) ∧
  (∀ (rd : RegIdx) (imm : Word) (s : State), ∃ t, exec (.auipc rd imm) s = .next t ∧
    RegisterEffect s t rd (sum s.pc imm) (s.pc + 4#32))

/-! ## Control transfer -/

/-- R200: JAL. Its word's fields; an aligned target is taken, the old PC plus 4 going to `rd`; a
target with bit 1 set traps with nothing written. -/
def Obligations.JumpAndLink : Prop :=
  (∀ w : Word, w.extractLsb' 0 7 = 0b1101111#7 →
    decode w = .ok (.jal (w.extractLsb' 7 5)
      ((w.extractLsb' 31 1 ++ w.extractLsb' 12 8 ++ w.extractLsb' 20 1 ++ w.extractLsb' 21 10 ++
        0#1).signExtend 32))) ∧
  (∀ (rd : RegIdx) (imm : Word) (s : State),
    ((s.pc + imm).getLsbD 1 = false → ∃ t, exec (.jal rd imm) s = .next t ∧
      RegisterEffect s t rd (s.pc + 4#32) (s.pc + imm)) ∧
    ((s.pc + imm).getLsbD 1 = true → Traps (.jal rd imm) s .misalignedInstruction))

/-- R201: JALR. Its word's fields, funct3 other than `000` rejected; the target is the old
`x[rs1] + imm` with bit 0 cleared, also when `rd = rs1`; a target with bit 1 set traps with nothing
written. -/
def Obligations.JumpAndLinkRegister : Prop :=
  DecodesI 0b1100111#7 0b000#3 .jalr ∧
  (∀ w : Word, w.extractLsb' 0 7 = 0b1100111#7 → w.extractLsb' 12 3 ≠ 0b000#3 → Illegal w) ∧
  (∀ (rd rs1 : RegIdx) (imm target : Word) (s : State),
    target.toNat = (s.readReg rs1 + imm).toNat - (s.readReg rs1 + imm).toNat % 2 →
    (target.getLsbD 1 = false → ∃ t, exec (.jalr rd rs1 imm) s = .next t ∧
      RegisterEffect s t rd (s.pc + 4#32) target) ∧
    (target.getLsbD 1 = true → Traps (.jalr rd rs1 imm) s .misalignedInstruction))

/-- R202 to R208: the encoding and the condition of each branch. -/
def Obligations.Branches : Prop :=
  (DecodesB 0b000#3 .beq ∧ BranchesWhen .beq (fun a b => a = b)) ∧
  (DecodesB 0b001#3 .bne ∧ BranchesWhen .bne (fun a b => a ≠ b)) ∧
  (DecodesB 0b100#3 .blt ∧ BranchesWhen .blt (fun a b => a.toInt < b.toInt)) ∧
  (DecodesB 0b101#3 .bge ∧ BranchesWhen .bge (fun a b => b.toInt ≤ a.toInt)) ∧
  (DecodesB 0b110#3 .bltu ∧ BranchesWhen .bltu (fun a b => a.toNat < b.toNat)) ∧
  (DecodesB 0b111#3 .bgeu ∧ BranchesWhen .bgeu (fun a b => b.toNat ≤ a.toNat))

/-! ## Loads and stores -/

/-- R221 to R225: encoding, value and range trap of each load. -/
def Obligations.LoadsExtendWhatMemoryHolds : Prop :=
  (DecodesI 0b0000011#7 0b000#3 .lb ∧
    Loads .lb 1 (fun m a => (m.readByte a).signExtend 32)) ∧
  (DecodesI 0b0000011#7 0b001#3 .lh ∧
    Loads .lh 2 (fun m a => (m.readByte (a + 1) ++ m.readByte a).signExtend 32)) ∧
  (DecodesI 0b0000011#7 0b010#3 .lw ∧ Loads .lw 4 wordAt) ∧
  (DecodesI 0b0000011#7 0b100#3 .lbu ∧
    Loads .lbu 1 (fun m a => BitVec.ofNat 32 (m.readByte a).toNat)) ∧
  (DecodesI 0b0000011#7 0b101#3 .lhu ∧
    Loads .lhu 2 (fun m a =>
      BitVec.ofNat 32 ((m.readByte (a + 1)).toNat * 256 + (m.readByte a).toNat)))

/-- R227 to R229: encoding, stored bytes, frame and range trap of each store. -/
def Obligations.StoresWriteTheirBytesOnly : Prop :=
  (DecodesS 0b000#3 .sb ∧ Stores .sb 1) ∧ (DecodesS 0b001#3 .sh ∧ Stores .sh 2) ∧
  (DecodesS 0b010#3 .sw ∧ Stores .sw 4)

/-- R61: the range test, whose sum is not wrapped; data access and fetch. -/
def Obligations.RangeTestDoesNotWrap : Prop :=
  ∀ (s : State) (addr v : Word) (w : Width),
    (s.memRead addr w = none ↔ s.mem.size < addr.toNat + w.bytes) ∧
    (s.memWrite addr w v = none ↔ s.mem.size < addr.toNat + w.bytes) ∧
    (s.fetch = none ↔ s.mem.size < s.pc.toNat + 4) ∧
    (s.memRead addr w ≠ none ↔ ∀ k, k < w.bytes → addr.toNat + k < s.mem.size)

/-- R62, R63: both accesses fail exactly out of range; `MemRead` composes and `MemWrite` splits
little-endian, byte `k` being bits `8k+7 .. 8k`; a write names its bytes only. -/
def Obligations.MemoryAccessIsLittleEndian : Prop :=
  (∀ (s : State) (addr v : Word) (w : Width),
    (s.mem.size < addr.toNat + w.bytes → s.memRead addr w = none ∧ s.memWrite addr w v = none) ∧
    (addr.toNat + w.bytes ≤ s.mem.size →
      (∃ x, s.memRead addr w = some x) ∧ ∃ t, s.memWrite addr w v = some t)) ∧
  (∀ (s : State) (addr : Word) (w : Width) (v : BitVec w.bits) (k : Nat),
    s.memRead addr w = some v → k < w.bytes →
      s.mem.readByte (addr.toNat + k) = v.extractLsb' (8 * k) 8) ∧
  (∀ (s t : State) (addr v : Word) (w : Width), s.memWrite addr w v = some t →
    (∀ k, k < w.bytes → t.mem.readByte (addr.toNat + k) = v.extractLsb' (8 * k) 8) ∧
    (∀ b, b < addr.toNat ∨ addr.toNat + w.bytes ≤ b → t.mem.readByte b = s.mem.readByte b) ∧
    t.mem.size = s.mem.size ∧ t = { s with mem := t.mem })

/-- R76: a word, halfword or byte stored in range and loaded back from its address, at any alignment,
by `MemRead` and by each load instruction. -/
def Obligations.StoreThenLoadRoundTrip : Prop :=
  ∀ (s : State) (addr v : Word),
    (addr.toNat + 4 ≤ s.mem.size → ∃ t, s.memWrite addr .word v = some t ∧
      t.memRead addr .word = some v ∧
      ∀ (rd rs1 : RegIdx) (imm : Word), t.readReg rs1 + imm = addr →
        ∃ u, exec (.lw rd rs1 imm) t = .next u ∧ RegisterEffect t u rd v (t.pc + 4#32)) ∧
    (addr.toNat + 2 ≤ s.mem.size → ∃ t, s.memWrite addr .half v = some t ∧
      t.memRead addr .half = some (v.extractLsb' 0 16) ∧
      ∀ (rd rs1 : RegIdx) (imm : Word), t.readReg rs1 + imm = addr →
        (∃ u, exec (.lhu rd rs1 imm) t = .next u ∧
          RegisterEffect t u rd (v &&& 0xFFFF#32) (t.pc + 4#32)) ∧
        (∃ u, exec (.lh rd rs1 imm) t = .next u ∧
          RegisterEffect t u rd ((v.extractLsb' 0 16).signExtend 32) (t.pc + 4#32))) ∧
    (addr.toNat + 1 ≤ s.mem.size → ∃ t, s.memWrite addr .byte v = some t ∧
      t.memRead addr .byte = some (v.extractLsb' 0 8) ∧
      ∀ (rd rs1 : RegIdx) (imm : Word), t.readReg rs1 + imm = addr →
        (∃ u, exec (.lbu rd rs1 imm) t = .next u ∧
          RegisterEffect t u rd (v &&& 0xFF#32) (t.pc + 4#32)) ∧
        (∃ u, exec (.lb rd rs1 imm) t = .next u ∧
          RegisterEffect t u rd ((v.extractLsb' 0 8).signExtend 32) (t.pc + 4#32)))

/-- R73: a word stored by one instruction is what every later fetch of that address reads, the fetch
of the very next instruction included. -/
def Obligations.StoredWordIsTheNextFetch : Prop :=
  ∀ (rs1 rs2 : RegIdx) (imm : Word) (s : State),
    (s.readReg rs1 + imm).toNat + 4 ≤ s.mem.size →
    ∃ t, exec (.sw rs1 rs2 imm) s = .next t ∧
      (t.setPc (s.readReg rs1 + imm)).fetch = some (s.readReg rs2) ∧
      (s.readReg rs1 + imm = s.pc + 4#32 → t.fetch = some (s.readReg rs2))

/-! ## System and fence -/

/-- R108, R242: every MISC-MEM word with funct3 `000` is FENCE, whatever its other fields, and no other
is; FENCE advances the PC and does nothing else. -/
def Obligations.FenceOnlyAdvances : Prop :=
  (∀ w : Word, w.extractLsb' 0 7 = 0b0001111#7 → w.extractLsb' 12 3 = 0b000#3 →
    decode w = .ok (.fence (w.extractLsb' 20 12) (w.extractLsb' 15 5) (w.extractLsb' 7 5))) ∧
  (∀ w : Word, w.extractLsb' 0 7 = 0b0001111#7 → w.extractLsb' 12 3 ≠ 0b000#3 → Illegal w) ∧
  (∀ (modes : BitVec 12) (rs1 rd : RegIdx) (s : State),
    ∃ t, exec (.fence modes rs1 rd) s = .next t ∧ PcEffect s t (s.pc + 4#32))

/-- R241: EBREAK's own effect is the trap `Breakpoint`, nothing written and the PC unchanged. -/
def Obligations.EbreakTrapsAsBreakpoint : Prop :=
  (∀ w : Word, decode w = .ok .ebreak ↔ w = 0x00100073#32) ∧
  ∀ s : State, exec .ebreak s = .next { s with status := .trapped .breakpoint }

/-- R240: ECALL exits with `a0`, read signed, when the whole of `a7` is 93, and advances the PC; with
any other `a7` it traps with nothing written. -/
def Obligations.EcallExitsOrTraps : Prop :=
  (∀ w : Word, decode w = .ok .ecall ↔ w = 0x00000073#32) ∧
  ∀ s : State,
    ((s.readReg 17#5).toNat = 93 →
      exec .ecall s = .next { s with
        pc := s.pc + 4#32, status := .exitedNormally (s.readReg 10#5).toInt }) ∧
    ((s.readReg 17#5).toNat ≠ 93 → Traps .ecall s .unsupportedSyscall)

/-! ## The step -/

/-- R130, R135: from a running state that fetches a word which decodes to `i`, the step is `exec i`;
what the step adds is a debug record, and with `DEBUG` false nothing. -/
def Obligations.StepRunsTheDecodedInstruction : Prop :=
  ∀ (s : State) (i : Instr), Runs s i →
    ∃ t u, exec i s = .next t ∧ step s = .next u ∧ SameButDump s t u

/-- R132, R133, R134: a failed fetch, the zero sentinel and a word that does not decode end the run,
tested in this order, and change nothing but the run status. -/
def Obligations.FetchSentinelAndDecodeEndTheRun : Prop :=
  ∀ s : State, s.status = .running →
    (s.mem.size < s.pc.toNat + 4 → StepEnds s (.trapped .fetchOutOfRange)) ∧
    (Fetches s 0#32 → StepEnds s .terminated) ∧
    (∀ w, Fetches s w → w ≠ 0#32 → Rejected w → StepEnds s (.trapped .illegalInstruction))

/-- R131, R138: every step from `Running` completes, and from a final status there is no step; that a
missing step is the fault `runEnded` is the model's choice (assumption 1). -/
def Obligations.StepsExactlyFromRunning : Prop :=
  ∀ s : State, (s.status = .running → ∃ u, step s = .next u) ∧
    (s.status ≠ .running → step s = .fault .runEnded)

/-- R264: every trap is precise. -/
def Obligations.TrapsArePrecise : Prop :=
  ∀ (s u : State) (k : TrapKind), step s = .next u → u.status = .trapped k →
    SameButDump s { s with status := .trapped k } u

/-- R260, R263: the six trap kinds and exactly what raises each, in every running state. -/
def Obligations.TrapKindsHaveExactlyTheirCauses : Prop :=
  ∀ (s u : State), s.status = .running → step s = .next u →
    (u.status = .trapped .fetchOutOfRange ↔ s.mem.size < s.pc.toNat + 4) ∧
    (u.status = .trapped .illegalInstruction ↔ ∃ w, Fetches s w ∧ w ≠ 0#32 ∧ Rejected w) ∧
    (u.status = .trapped .misalignedInstruction ↔
      ∃ i target, Runs s i ∧ transferTarget s i = some target ∧ target.getLsbD 1 = true) ∧
    (u.status = .trapped .memoryOutOfRange ↔
      ∃ i a n, Runs s i ∧ dataAccess s i = some (a, n) ∧ s.mem.size < a + n) ∧
    (u.status = .trapped .unsupportedSyscall ↔ Runs s .ecall ∧ s.readReg 17#5 ≠ 93#32) ∧
    (u.status = .trapped .breakpoint ↔ Runs s .ebreak)

/-- R132, R240: a run ends normally only through the exit call, and `Terminated` only through the zero
word. -/
def Obligations.NormalEndsHaveExactlyTheirCauses : Prop :=
  ∀ (s u : State), s.status = .running → step s = .next u →
    (∀ code, u.status = .exitedNormally code ↔
      Runs s .ecall ∧ s.readReg 17#5 = 93#32 ∧ code = (s.readReg 10#5).toInt) ∧
    (u.status = .terminated ↔ Fetches s 0#32)

/-- R139: `x0` reads 0 in every state, and an instruction that is no branch or jump and does not trap
moves the PC by 4. -/
def Obligations.ZeroRegisterAndSequentialFlow : Prop :=
  (∀ s : State, s.readReg 0#5 = 0#32) ∧
  (∀ (s u : State) (i : Instr), Runs s i → transfersControl i = false → step s = .next u →
    (∀ k, u.status ≠ .trapped k) → u.pc = s.pc + 4#32)

/-- R32: a write to `x0` does nothing, any other write sets that register only, and a step changes no
register but the `rd` of an instruction that has one. -/
def Obligations.OnlyTheDestinationRegisterChanges : Prop :=
  (∀ (s : State) (v : Word), s.writeReg 0#5 v = s) ∧
  (∀ (s : State) (i r : RegIdx) (v : Word), i ≠ 0#5 →
    (s.writeReg i v).readReg r = if r = i then v else s.readReg r) ∧
  (∀ (s u : State) (r : RegIdx), step s = .next u → u.readReg r ≠ s.readReg r →
    ∃ i, Runs s i ∧ destination i = some r)

/-- R70, R226: a step changes no byte of memory but those a store names, and never its size. -/
def Obligations.OnlyStoresChangeMemory : Prop :=
  ∀ (s u : State), step s = .next u → u.mem.size = s.mem.size ∧
    ∀ b, u.mem.readByte b ≠ s.mem.readByte b →
      ∃ i a n, Runs s i ∧ isStore i = true ∧ dataAccess s i = some (a, n) ∧ a ≤ b ∧ b < a + n

/-- The invariant of a run is kept by every step, from every state that meets it. Derived from R35 (the
PC) and R39 (the exit code); that the memory of R36 is a canonical cell list (assumption 25) and that
the slot of `x0` holds 0 (assumption 16) are the model's choice. -/
def Obligations.StepKeepsTheInvariant : Prop :=
  ∀ s u : State, s.Inv → step s = .next u → u.Inv

/-- The reset state meets the invariant; its exit code, if its status has one, is in range. The
canonical cell list and the `x0` slot are the model's own (assumptions 16 and 25). -/
def Obligations.ResetMeetsTheInvariant : Prop := State.reset.Inv

/-! ## Debug stream -/

/-- R140: the record of a step that goes on holds the pre-execution PC, the raw word and the register
file after the step, and stands at the end of the stream; with `DEBUG` false there is none. Whether a
step that ends the run emits one is open (assumption 7). -/
def Obligations.DebugRecordOfAStep : Prop :=
  ∀ (s u : State), step s = .next u →
    (s.debug = false → u.dump = s.dump) ∧
    (s.debug = true → u.status = .running → ∃ d : DumpRecord, u.dump = s.dump ++ [d] ∧
      d.pc = s.pc ∧ d.word = wordAt s.mem s.pc.toNat ∧
      ∀ r : RegIdx, d.regs[r.toNat]? = some (u.readReg r))

/-- R140: the dump never changes the machine state: with another `DEBUG` and another stream the step
does the same to everything else. -/
def Obligations.DebugNeverChangesTheMachine : Prop :=
  ∀ (s u : State) (debug : Bool) (dump : List DumpRecord), step s = .next u →
    ∃ v, step { s with debug := debug, dump := dump } = .next v ∧
      v = { u with debug := debug, dump := v.dump }

/-! ## Construction, reset and the terminal record -/

/-- Derived from R301 and R302: construction from an image and a `MEM_SIZE` the parameter table admits.
Two clauses are the model's choice: that the debug stream (R140) is a field which starts empty
(assumption 6), and that the state meets `State.Inv`, whose canonical cell list and `x0` slot are the
model's own (assumptions 16 and 25). -/
def Obligations.ConstructionPlacesTheImage : Prop :=
  ∀ (image : List Byte) (memSize : Nat) (debug : Bool), memSize ≤ 2 ^ 32 →
    (memSize < image.length → construct image memSize debug = .error .imageTooLarge) ∧
    (image.length ≤ memSize → ∃ s, construct image memSize debug = .ok s ∧
      (∀ a (h : a < image.length), s.mem.readByte a = image[a]) ∧
      (∀ a, image.length ≤ a → s.mem.readByte a = 0#8) ∧ s.mem.size = memSize ∧
      (∀ r : RegIdx, s.readReg r = 0#32) ∧ s.pc = 0#32 ∧ s.status = .running ∧
      s.debug = debug ∧ s.dump = [] ∧ s.Inv)

/-- R303: the reset state. That it has no image, the default `MEM_SIZE` and `DEBUG` false is the
model's choice among the construction inputs (assumptions 2 and 4). -/
def Obligations.ResetState : Prop :=
  (∀ r : RegIdx, State.reset.readReg r = 0#32) ∧ State.reset.pc = 0#32 ∧
  (∀ a : Nat, State.reset.mem.readByte a = 0#8) ∧ State.reset.status = .running ∧
  construct [] 0x00100000 false = .ok State.reset

/-- R41: the terminal record of a step that ends the run: the reason, the exit code, the registers as
they read, and the PC held. -/
def Obligations.TerminalRecordOfTheEnd : Prop :=
  ∀ (s u : State), step s = .next u →
    (u.status = .running → terminalRecord u = none) ∧
    (u.status ≠ .running → ∃ rec, terminalRecord u = some rec ∧
      (∀ r : RegIdx, rec.finalRegisters[r.toNat]? = some (u.readReg r)) ∧ rec.finalPc = u.pc ∧
      (∀ code, u.status = .exitedNormally code → rec.reason = .exitedNormally ∧
        rec.exitCode = some code ∧ rec.finalPc = s.pc + 4#32) ∧
      (∀ k, u.status = .trapped k → rec.reason = .trapped k ∧ rec.exitCode = none ∧
        rec.finalPc = s.pc) ∧
      (u.status = .terminated → rec.reason = .terminated ∧ rec.exitCode = none ∧
        rec.finalPc = s.pc))

/-! ## Pseudo-instructions -/

/-- R122: `li` leaves its constant, whichever expansion it has, and `la` the address at its offset,
in `rd` (nothing where `rd` is `x0`); no other register and no memory changes. -/
def Obligations.LoadConstantAndAddress : Prop :=
  ∀ (rd : RegIdx) (x : Word) (s : State), s.status = .running →
    (∃ t, execList (Pseudo.li rd x).expand s = .next t ∧
      RegisterEffect s t rd x (s.pc + BitVec.ofNat 32 (4 * (Pseudo.li rd x).expand.length))) ∧
    (∃ t, execList (Pseudo.la rd x).expand s = .next t ∧
      RegisterEffect s t rd (s.pc + x) (s.pc + 8#32))

/-- R122: `call` reaches the instruction at its offset from the call, for every offset that is a
multiple of 4 from an aligned PC, and leaves in `ra` the address after its expansion. -/
def Obligations.CallReachesItsTarget : Prop :=
  ∀ (off : Word) (s : State), s.status = .running → s.pc.toNat % 4 = 0 → off.toNat % 4 = 0 →
    ∃ t, execList (Pseudo.call off).expand s = .next t ∧
      RegisterEffect s t 1#5 (s.pc + 8#32) (s.pc + off)
end

