-- ==== Sys2Proof/Laws/State.lean ====
section
/-! SUPPORT. One lemma per field per update of State, each true by rfl, so that no proof unfolds a
record update. -/
namespace Sys2Proof.Machine

@[simp] theorem State.setPc_regs (s : State) (p : Word) : (s.setPc p).regs = s.regs := rfl
@[simp] theorem State.setPc_pc (s : State) (p : Word) : (s.setPc p).pc = p := rfl
@[simp] theorem State.setPc_mem (s : State) (p : Word) : (s.setPc p).mem = s.mem := rfl
@[simp] theorem State.setPc_status (s : State) (p : Word) : (s.setPc p).status = s.status := rfl
@[simp] theorem State.setPc_debug (s : State) (p : Word) : (s.setPc p).debug = s.debug := rfl
@[simp] theorem State.setPc_dump (s : State) (p : Word) : (s.setPc p).dump = s.dump := rfl
@[simp] theorem State.setPc_readReg (s : State) (p : Word) (i : RegIdx) :
    (s.setPc p).readReg i = s.readReg i := rfl

@[simp] theorem State.setStatus_regs (s : State) (st : RunStatus) : (s.setStatus st).regs = s.regs := rfl
@[simp] theorem State.setStatus_pc (s : State) (st : RunStatus) : (s.setStatus st).pc = s.pc := rfl
@[simp] theorem State.setStatus_mem (s : State) (st : RunStatus) : (s.setStatus st).mem = s.mem := rfl
@[simp] theorem State.setStatus_status (s : State) (st : RunStatus) : (s.setStatus st).status = st := rfl
@[simp] theorem State.setStatus_debug (s : State) (st : RunStatus) : (s.setStatus st).debug = s.debug := rfl
@[simp] theorem State.setStatus_dump (s : State) (st : RunStatus) : (s.setStatus st).dump = s.dump := rfl
@[simp] theorem State.setStatus_readReg (s : State) (st : RunStatus) (i : RegIdx) :
    (s.setStatus st).readReg i = s.readReg i := rfl
@[simp] theorem State.setStatus_nextPc (s : State) (st : RunStatus) : (s.setStatus st).nextPc = s.nextPc := rfl

@[simp] theorem State.setMem_regs (s : State) (m : Memory) : (s.setMem m).regs = s.regs := rfl
@[simp] theorem State.setMem_pc (s : State) (m : Memory) : (s.setMem m).pc = s.pc := rfl
@[simp] theorem State.setMem_mem (s : State) (m : Memory) : (s.setMem m).mem = m := rfl
@[simp] theorem State.setMem_status (s : State) (m : Memory) : (s.setMem m).status = s.status := rfl
@[simp] theorem State.setMem_debug (s : State) (m : Memory) : (s.setMem m).debug = s.debug := rfl
@[simp] theorem State.setMem_dump (s : State) (m : Memory) : (s.setMem m).dump = s.dump := rfl
@[simp] theorem State.setMem_readReg (s : State) (m : Memory) (i : RegIdx) :
    (s.setMem m).readReg i = s.readReg i := rfl
@[simp] theorem State.setMem_nextPc (s : State) (m : Memory) : (s.setMem m).nextPc = s.nextPc := rfl

@[simp] theorem State.addDump_regs (s : State) (r : DumpRecord) : (s.addDump r).regs = s.regs := rfl
@[simp] theorem State.addDump_pc (s : State) (r : DumpRecord) : (s.addDump r).pc = s.pc := rfl
@[simp] theorem State.addDump_mem (s : State) (r : DumpRecord) : (s.addDump r).mem = s.mem := rfl
@[simp] theorem State.addDump_status (s : State) (r : DumpRecord) : (s.addDump r).status = s.status := rfl
@[simp] theorem State.addDump_debug (s : State) (r : DumpRecord) : (s.addDump r).debug = s.debug := rfl
@[simp] theorem State.addDump_dump (s : State) (r : DumpRecord) : (s.addDump r).dump = s.dump ++ [r] := rfl
@[simp] theorem State.addDump_readReg (s : State) (r : DumpRecord) (i : RegIdx) :
    (s.addDump r).readReg i = s.readReg i := rfl
@[simp] theorem State.addDump_nextPc (s : State) (r : DumpRecord) : (s.addDump r).nextPc = s.nextPc := rfl

@[simp] theorem State.advance_regs (s : State) : s.advance.regs = s.regs := rfl
@[simp] theorem State.advance_pc (s : State) : s.advance.pc = s.pc + 4#32 := rfl
@[simp] theorem State.advance_mem (s : State) : s.advance.mem = s.mem := rfl
@[simp] theorem State.advance_status (s : State) : s.advance.status = s.status := rfl
@[simp] theorem State.advance_debug (s : State) : s.advance.debug = s.debug := rfl
@[simp] theorem State.advance_dump (s : State) : s.advance.dump = s.dump := rfl
@[simp] theorem State.advance_readReg (s : State) (i : RegIdx) :
    s.advance.readReg i = s.readReg i := rfl

@[simp] theorem State.writeReg_pc (s : State) (i : RegIdx) (v : Word) :
    (s.writeReg i v).pc = s.pc := by unfold State.writeReg; split <;> rfl
@[simp] theorem State.writeReg_mem (s : State) (i : RegIdx) (v : Word) :
    (s.writeReg i v).mem = s.mem := by unfold State.writeReg; split <;> rfl
@[simp] theorem State.writeReg_status (s : State) (i : RegIdx) (v : Word) :
    (s.writeReg i v).status = s.status := by unfold State.writeReg; split <;> rfl
@[simp] theorem State.writeReg_debug (s : State) (i : RegIdx) (v : Word) :
    (s.writeReg i v).debug = s.debug := by unfold State.writeReg; split <;> rfl
@[simp] theorem State.writeReg_dump (s : State) (i : RegIdx) (v : Word) :
    (s.writeReg i v).dump = s.dump := by unfold State.writeReg; split <;> rfl
@[simp] theorem State.writeReg_nextPc (s : State) (i : RegIdx) (v : Word) :
    (s.writeReg i v).nextPc = s.nextPc := by simp [State.nextPc]

theorem State.nextPc_eq (s : State) : s.nextPc = s.pc + 4#32 := rfl

/-- The record a step adds is the only thing `withRecord` changes. -/
theorem withRecord_eq (s t : State) : withRecord s t = { t with dump := (withRecord s t).dump } := by
  unfold withRecord; split <;> rfl

@[simp] theorem withRecord_regs (s t : State) : (withRecord s t).regs = t.regs := by
  rw [withRecord_eq]
@[simp] theorem withRecord_pc (s t : State) : (withRecord s t).pc = t.pc := by
  rw [withRecord_eq]
@[simp] theorem withRecord_mem (s t : State) : (withRecord s t).mem = t.mem := by
  rw [withRecord_eq]
@[simp] theorem withRecord_status (s t : State) : (withRecord s t).status = t.status := by
  rw [withRecord_eq]
@[simp] theorem withRecord_debug (s t : State) : (withRecord s t).debug = t.debug := by
  rw [withRecord_eq]
@[simp] theorem withRecord_readReg (s t : State) (i : RegIdx) :
    (withRecord s t).readReg i = t.readReg i := by rw [withRecord_eq]; rfl

/-- With `DEBUG` false a step adds no record. -/
theorem withRecord_of_not_debug {s : State} (h : s.debug = false) (t : State) :
    withRecord s t = t := by simp [withRecord, h]

end Sys2Proof.Machine
end

