-- ==== Sys2Proof/Laws/Memory.lean ====
section
/-! SUPPORT. The laws of the memory array: read after write, and the canonical form, which every
operation keeps (R36, R62, R63). -/
namespace Sys2Proof.Machine

/-! ## Cells -/

theorem cellAt_eraseCell (a b : Nat) (cells : List Host.Cell) :
    cellAt b (eraseCell a cells) = if b = a then Memory.unlisted else cellAt b cells := by
  induction cells with
  | nil => simp [eraseCell, cellAt]
  | cons c rest ih =>
    obtain ⟨k, v⟩ := c
    unfold eraseCell at ih ⊢
    rw [List.filter_cons]
    by_cases hk : k = a
    · subst hk
      simp only [ne_eq, not_true, decide_false, Bool.false_eq_true, if_false, ih, cellAt]
      by_cases hb : b = k <;> simp [hb, eq_comm]
    · simp only [ne_eq, hk, not_false_eq_true, decide_true, if_true, cellAt, ih]
      by_cases hkb : k = b
      · simp [hkb, show ¬ b = a from hkb ▸ hk]
      · simp [hkb]

theorem cellAt_insertCell (a b : Nat) (v : Byte) (cells : List Host.Cell)
    (h : ∀ c ∈ cells, c.1 ≠ a) :
    cellAt b (insertCell a v cells) = if b = a then v else cellAt b cells := by
  induction cells with
  | nil => simp [insertCell, cellAt, eq_comm]
  | cons c rest ih =>
    obtain ⟨k, w⟩ := c
    have hk : k ≠ a := h (k, w) (by simp)
    have ih := ih fun c hc => h c (by simp [hc])
    unfold insertCell
    split
    · simp [cellAt, eq_comm]
    · simp only [cellAt, ih]
      by_cases hkb : k = b
      · simp [hkb, show ¬ b = a from hkb ▸ hk]
      · simp [hkb]

theorem eraseCell_ne (a : Nat) (cells : List Host.Cell) :
    ∀ c ∈ eraseCell a cells, c.1 ≠ a := by
  intro c hc
  simpa using (List.mem_filter.mp hc).2

theorem mem_insertCell {a : Nat} {v : Byte} {c : Host.Cell} {cells : List Host.Cell}
    (h : c ∈ insertCell a v cells) : c = (a, v) ∨ c ∈ cells := by
  induction cells with
  | nil => simpa [insertCell] using h
  | cons d rest ih =>
    obtain ⟨k, w⟩ := d
    unfold insertCell at h
    split at h
    · simpa using h
    · rcases List.mem_cons.mp h with h | h
      · exact .inr (by simp [h])
      · exact (ih h).imp id fun h => by simp [h]

theorem insertCell_pairwise {a : Nat} {v : Byte} {cells : List Host.Cell}
    (hp : cells.Pairwise (fun c d => c.1 < d.1)) (h : ∀ c ∈ cells, c.1 ≠ a) :
    (insertCell a v cells).Pairwise (fun c d => c.1 < d.1) := by
  induction cells with
  | nil => simp [insertCell]
  | cons d rest ih =>
    obtain ⟨k, w⟩ := d
    have hk : k ≠ a := h (k, w) (by simp)
    obtain ⟨hd, hr⟩ := List.pairwise_cons.mp hp
    unfold insertCell
    split
    · rename_i hlt
      refine List.pairwise_cons.mpr ⟨fun c hc => ?_, hp⟩
      rcases List.mem_cons.mp hc with rfl | hc
      · exact hlt
      · exact Nat.lt_trans hlt (hd c hc)
    · refine List.pairwise_cons.mpr ⟨fun c hc => ?_, ih hr fun c hc => h c (by simp [hc])⟩
      rcases mem_insertCell hc with rfl | hc
      · show k < a
        omega
      · exact hd c hc

/-! ## Bytes -/

@[simp] theorem writeByte_size (m : Memory) (a : Nat) (b : Byte) : (m.writeByte a b).size = m.size :=
  rfl

/-- The one law of the byte array: a read after a write. -/
theorem readByte_writeByte (m : Memory) (a c : Nat) (b : Byte) :
    (m.writeByte a b).readByte c = if c = a then b else m.readByte c := by
  unfold Memory.readByte Memory.writeByte
  simp only
  split
  · rename_i h; subst h; rw [cellAt_eraseCell]
  · rw [cellAt_insertCell _ _ _ _ (eraseCell_ne a m.cells), cellAt_eraseCell]
    split <;> rfl

/-- What the canonical form says, clause by clause. -/
theorem Memory.wf_iff (m : Memory) : m.wf = true ↔
    m.size ≤ Config.maxMemSize ∧ m.cells.Pairwise (fun c d => c.1 < d.1) ∧
      ∀ c ∈ m.cells, c.1 < m.size ∧ c.2 ≠ Memory.unlisted := by
  simp [Memory.wf, and_assoc]

theorem writeByte_wf {m : Memory} (h : m.wf = true) {a : Nat} (ha : a < m.size) (b : Byte) :
    (m.writeByte a b).wf = true := by
  rw [Memory.wf_iff] at h ⊢
  obtain ⟨hs, hp, hc⟩ := h
  have hpe : (eraseCell a m.cells).Pairwise (fun c d => c.1 < d.1) :=
    List.Pairwise.sublist List.filter_sublist hp
  have hce : ∀ c ∈ eraseCell a m.cells, c.1 < m.size ∧ c.2 ≠ Memory.unlisted :=
    fun c hm => hc c (List.mem_filter.mp hm).1
  refine ⟨hs, ?_⟩
  unfold Memory.writeByte
  simp only
  split
  · exact ⟨hpe, hce⟩
  · rename_i hb
    refine ⟨insertCell_pairwise hpe (eraseCell_ne a m.cells), fun c hm => ?_⟩
    rcases mem_insertCell hm with rfl | hm
    · exact ⟨ha, hb⟩
    · exact hce c hm

/-! ## Stores and placed images -/

@[simp] theorem store_size (m : Memory) (a : Nat) (v : Word) (n : Nat) :
    (m.store a v n).size = m.size := by
  induction n with
  | zero => rfl
  | succ k ih => simpa [Memory.store] using ih

/-- What every byte reads after a store of `n` bytes. -/
theorem readByte_store (m : Memory) (a c : Nat) (v : Word) (n : Nat) :
    (m.store a v n).readByte c =
      if a ≤ c ∧ c < a + n then byteOf v (c - a) else m.readByte c := by
  induction n with
  | zero => rw [Memory.store, if_neg (by omega)]
  | succ k ih =>
    rw [Memory.store, readByte_writeByte, ih]
    by_cases h : c = a + k
    · subst h; simp
    · rw [if_neg h]
      by_cases h2 : a ≤ c ∧ c < a + k
      · rw [if_pos h2, if_pos (by omega)]
      · rw [if_neg h2, if_neg (by omega)]

theorem store_wf {m : Memory} (h : m.wf = true) {a n : Nat} (ha : a + n ≤ m.size) (v : Word) :
    (m.store a v n).wf = true := by
  induction n with
  | zero => exact h
  | succ k ih => exact writeByte_wf (ih (by omega)) (by simp; omega) _

@[simp] theorem place_size (m : Memory) (a : Nat) (bs : List Byte) : (m.place a bs).size = m.size := by
  induction bs generalizing m a with
  | nil => rfl
  | cons b rest ih => simp [Memory.place, ih]

/-- What every byte reads after an image is placed. -/
theorem readByte_place (m : Memory) (a c : Nat) (bs : List Byte) :
    (m.place a bs).readByte c =
      if a ≤ c ∧ c < a + bs.length then bs.getD (c - a) Memory.unlisted else m.readByte c := by
  induction bs generalizing m a with
  | nil => rw [Memory.place, List.length_nil, if_neg (by omega)]
  | cons b rest ih =>
    rw [Memory.place, ih, readByte_writeByte, List.length_cons]
    by_cases h : c = a
    · subst h; rw [if_neg (by omega)]; simp
    · by_cases h2 : a ≤ c ∧ c < a + (rest.length + 1)
      · rw [if_pos (by omega), if_pos h2, show c - a = (c - (a + 1)) + 1 by omega]; rfl
      · rw [if_neg (by omega), if_neg h2, if_neg h]

theorem place_wf {m : Memory} (h : m.wf = true) {a : Nat} {bs : List Byte}
    (ha : a + bs.length ≤ m.size) : (m.place a bs).wf = true := by
  induction bs generalizing m a with
  | nil => exact h
  | cons b rest ih =>
    rw [List.length_cons] at ha
    exact ih (writeByte_wf h (by omega) b) (by simp; omega)

/-- The memory of the reset state is in canonical form. -/
theorem reset_mem_wf : State.reset.mem.wf = true := by decide

/-! ## Words and bytes -/

theorem wordOfBytes_byteOf (v : Word) :
    wordOfBytes (byteOf v 0) (byteOf v 1) (byteOf v 2) (byteOf v 3) = v := by
  apply BitVec.eq_of_getLsbD_eq
  intro i hi
  simp only [wordOfBytes, byteOf, BitVec.getLsbD_append, BitVec.getLsbD_extractLsb']
  repeat' split
  all_goals
    rw [show decide _ = true from decide_eq_true (by omega), Bool.true_and]; congr 1; omega

/-- A word read at the place a word was stored is that word (R76). -/
theorem readWord_store (m : Memory) (a : Nat) (v : Word) :
    (m.store a v 4).readWord a = v := by
  have h (k : Nat) (hk : k < 4) : (m.store a v 4).readByte (a + k) = byteOf v k := by
    rw [readByte_store, if_pos (by omega), Nat.add_sub_cancel_left]
  have h0 := h 0 (by omega)
  simp only [Nat.add_zero] at h0
  unfold Memory.readWord
  rw [h0, h 1 (by omega), h 2 (by omega), h 3 (by omega), wordOfBytes_byteOf]

end Sys2Proof.Machine
end

