-- ==== Sys2Proof/Laws/Registers.lean ====
section
/-! SUPPORT. Reading a register after writing one (R31, R32). -/
namespace Sys2Proof.Machine

@[simp] theorem readReg_zero (s : State) : s.readReg 0#5 = 0#32 := rfl

theorem writeReg_zero (s : State) (v : Word) : s.writeReg 0#5 v = s := rfl

/-- What every register reads after `x[i] <- v`: the one law of the register file. -/
theorem readReg_writeReg (s : State) (i r : RegIdx) (v : Word) :
    (s.writeReg i v).readReg r = if r = 0#5 then 0#32 else if r = i then v else s.readReg r := by
  by_cases hr : r = 0#5
  · simp [hr]
  by_cases hi : i = 0#5
  · subst hi; simp [hr, writeReg_zero]
  · by_cases h : r = i
    · subst h; simp [State.readReg, State.writeReg, hr]
    · have hne : i.toNat ≠ r.toNat := fun e => h (BitVec.eq_of_toNat_eq e.symm)
      simp [State.readReg, State.writeReg, hr, hi, h, Vector.getElem_set_ne, hne]

/-- The slot of `x0` is never written. -/
theorem writeReg_slot_zero (s : State) (i : RegIdx) (v : Word) :
    (s.writeReg i v).regs[0] = s.regs[0] := by
  unfold State.writeReg
  split
  · rfl
  · rename_i h
    have hne : i.toNat ≠ 0 := fun e => h (BitVec.eq_of_toNat_eq (by simpa using e))
    simp [Vector.getElem_set_ne, hne]

/-- Entry `i` of the reported register file is what `x[i]` reads (R41). -/
theorem registerFile_get (s : State) (i : RegIdx) :
    s.registerFile[i.toNat]'(i.isLt) = s.readReg i := by
  simp [State.registerFile]

end Sys2Proof.Machine
end

