-- ==== Sys2Proof/Laws/Ops.lean ====
section
/-! SUPPORT. For each shared operation, once, everything it can do. -/
namespace Sys2Proof.Machine

theorem inRange_iff (m : Memory) (a n : Nat) : m.inRange a n = true ↔ a + n ≤ m.size := by
  simp [Memory.inRange]

/-- `MemRead` gives the bytes exactly when the access is in range (R61, R62). -/
theorem memRead_eq_some {s : State} {addr : Word} {w : Width}
    (h : addr.toNat + w.bytes ≤ s.mem.size) :
    s.memRead addr w = some (s.mem.read addr.toNat w) := by
  simp [State.memRead, inRange_iff, h]

theorem memRead_eq_none {s : State} {addr : Word} {w : Width}
    (h : s.mem.size < addr.toNat + w.bytes) : s.memRead addr w = none := by
  simp [State.memRead, inRange_iff, h]

/-- `MemWrite` stores the bytes exactly when the access is in range (R61, R63). -/
theorem memWrite_eq_some {s : State} {addr v : Word} {w : Width}
    (h : addr.toNat + w.bytes ≤ s.mem.size) :
    s.memWrite addr w v = some (s.setMem (s.mem.store addr.toNat v w.bytes)) := by
  simp [State.memWrite, inRange_iff, h]

theorem memWrite_eq_none {s : State} {addr v : Word} {w : Width}
    (h : s.mem.size < addr.toNat + w.bytes) : s.memWrite addr w v = none := by
  simp [State.memWrite, inRange_iff, h]

theorem fetch_eq_some {s : State} (h : s.pc.toNat + 4 ≤ s.mem.size) :
    s.fetch = some (s.mem.readWord s.pc.toNat) := by
  simp [State.fetch, inRange_iff, h]

theorem fetch_eq_none {s : State} (h : s.mem.size < s.pc.toNat + 4) : s.fetch = none := by
  simp [State.fetch, inRange_iff, h]

/-- A load traps out of range and writes its extended value in range; nothing else (R220). -/
theorem loadInto_cases (w : Width) (extend : BitVec w.bits → Word) (rd : RegIdx) (ea : Word)
    (s : State) :
    (s.mem.size < ea.toNat + w.bytes ∧
      loadInto w extend rd ea s = .next (s.setStatus (.trapped .memoryOutOfRange))) ∨
    (ea.toNat + w.bytes ≤ s.mem.size ∧
      loadInto w extend rd ea s =
        .next (s.writeReg rd (extend (s.mem.read ea.toNat w))).advance) := by
  rcases Nat.lt_or_ge s.mem.size (ea.toNat + w.bytes) with h | h
  · exact .inl ⟨h, by simp [loadInto, memRead_eq_none h, raise]⟩
  · exact .inr ⟨h, by simp [loadInto, memRead_eq_some h, writeResult]⟩

/-- A store traps out of range and stores its bytes in range; nothing else (R226). -/
theorem storeFrom_cases (w : Width) (ea v : Word) (s : State) :
    (s.mem.size < ea.toNat + w.bytes ∧
      storeFrom w ea v s = .next (s.setStatus (.trapped .memoryOutOfRange))) ∨
    (ea.toNat + w.bytes ≤ s.mem.size ∧
      storeFrom w ea v s = .next (s.setMem (s.mem.store ea.toNat v w.bytes)).advance) := by
  rcases Nat.lt_or_ge s.mem.size (ea.toNat + w.bytes) with h | h
  · exact .inl ⟨h, by simp [storeFrom, memWrite_eq_none h, raise]⟩
  · exact .inr ⟨h, by simp [storeFrom, memWrite_eq_some h]⟩

/-! ## Transfer targets -/

/-- Bit 1 of a Word, as arithmetic. -/
theorem misaligned_iff (t : Word) : misaligned t = true ↔ t.toNat / 2 % 2 = 1 := by
  simp [misaligned, BitVec.getLsbD, Nat.testBit_eq_decide_div_mod_eq]

/-- A target with bits 1 and 0 clear is a multiple of 4. -/
theorem aligned_of_even {t : Word} (h : misaligned t = false) (he : t.toNat % 2 = 0) :
    t.toNat % 4 = 0 := by
  have : ¬ t.toNat / 2 % 2 = 1 := fun e => by simp [(misaligned_iff t).mpr e] at h
  omega

/-- An even offset from a PC that is a multiple of 4 gives an even target. -/
theorem pcRelative_even {s : State} {imm : Word} (hp : s.pc.toNat % 4 = 0)
    (hi : imm.toNat % 2 = 0) : (pcRelative s imm).toNat % 2 = 0 := by
  simp only [pcRelative, BitVec.toNat_add]
  omega

/-- JALR clears bit 0 of its target (R201). -/
theorem jalrTarget_even (s : State) (rs1 : RegIdx) (imm : Word) :
    (jalrTarget s rs1 imm).toNat % 2 = 0 := by
  have h : (jalrTarget s rs1 imm).getLsbD 0 = false := by simp [jalrTarget]
  simpa [BitVec.getLsbD, Nat.testBit_zero] using h

/-- The sequential PC keeps the alignment (R35). -/
theorem nextPc_aligned {s : State} (h : s.pc.toNat % 4 = 0) : (s.pc + 4#32).toNat % 4 = 0 := by
  rw [BitVec.toNat_add, show (4#32).toNat = 4 from rfl]
  omega

end Sys2Proof.Machine
end

