-- ==== Sys2Proof/Laws/Control.lean ====
section
/-! SUPPORT. Jumps and branches: everything each shared operation can do. -/
namespace Sys2Proof.Machine

/-- A jump traps on a misaligned target, else links and goes there; nothing else (R200, R201). -/
theorem jumpAndLink_cases (rd : RegIdx) (target : Word) (s : State) :
    (misaligned target = true ∧
      jumpAndLink rd target s = .next (s.setStatus (.trapped .misalignedInstruction))) ∨
    (misaligned target = false ∧
      jumpAndLink rd target s = .next ((s.writeReg rd s.nextPc).setPc target)) := by
  cases h : misaligned target <;> simp [jumpAndLink, raise, h]

/-- A branch goes on, traps on a misaligned target, or goes there; nothing else (R202). -/
theorem branch_cases (taken : Bool) (imm : Word) (s : State) :
    (taken = false ∧ branch taken imm s = .next s.advance) ∨
    (taken = true ∧ misaligned (pcRelative s imm) = true ∧
      branch taken imm s = .next (s.setStatus (.trapped .misalignedInstruction))) ∨
    (taken = true ∧ misaligned (pcRelative s imm) = false ∧
      branch taken imm s = .next (s.setPc (pcRelative s imm))) := by
  cases taken <;> cases h : misaligned (pcRelative s imm) <;> simp [branch, raise, h]

end Sys2Proof.Machine
end

