-- ==== Sys2Proof/Laws/Encoding.lean ====
section
/-! SUPPORT. The fields of each format's word, and the immediates: extending a field gives back every
immediate that `WellFormed.lean` admits, and only those. -/
namespace Sys2Proof

/-! ## Fields of each format (R93 to R98) -/

theorem fields_encodeR (f7 : BitVec 7) (f3 : BitVec 3) (op : BitVec 7) (rd rs1 rs2 : RegIdx) :
    opcodeOf (encodeR f7 f3 op rd rs1 rs2) = op ∧ rdOf (encodeR f7 f3 op rd rs1 rs2) = rd ∧
    funct3Of (encodeR f7 f3 op rd rs1 rs2) = f3 ∧ rs1Of (encodeR f7 f3 op rd rs1 rs2) = rs1 ∧
    rs2Of (encodeR f7 f3 op rd rs1 rs2) = rs2 ∧ funct7Of (encodeR f7 f3 op rd rs1 rs2) = f7 := by
  refine ⟨?_, ?_, ?_, ?_, ?_, ?_⟩ <;>
  · apply BitVec.eq_of_getLsbD_eq
    intro i hi
    simp only [opcodeOf, rdOf, funct3Of, rs1Of, rs2Of, funct7Of, encodeR, BitVec.getLsbD_append,
      BitVec.getLsbD_extractLsb']
    interval_cases i <;> simp

theorem fields_encodeI (f3 : BitVec 3) (op : BitVec 7) (rd rs1 : RegIdx) (imm : BitVec 12) :
    opcodeOf (encodeI f3 op rd rs1 imm) = op ∧ rdOf (encodeI f3 op rd rs1 imm) = rd ∧
    funct3Of (encodeI f3 op rd rs1 imm) = f3 ∧ rs1Of (encodeI f3 op rd rs1 imm) = rs1 ∧
    imm12Of (encodeI f3 op rd rs1 imm) = imm := by
  refine ⟨?_, ?_, ?_, ?_, ?_⟩ <;>
  · apply BitVec.eq_of_getLsbD_eq
    intro i hi
    simp only [opcodeOf, rdOf, funct3Of, rs1Of, imm12Of, encodeI, BitVec.getLsbD_append,
      BitVec.getLsbD_extractLsb']
    interval_cases i <;> simp

theorem fields_encodeS (f3 : BitVec 3) (op : BitVec 7) (rs1 rs2 : RegIdx) (imm : Word) :
    opcodeOf (encodeS f3 op rs1 rs2 imm) = op ∧ funct3Of (encodeS f3 op rs1 rs2 imm) = f3 ∧
    rs1Of (encodeS f3 op rs1 rs2 imm) = rs1 ∧ rs2Of (encodeS f3 op rs1 rs2 imm) = rs2 ∧
    immS (encodeS f3 op rs1 rs2 imm) = (imm.extractLsb' 0 12).signExtend 32 := by
  have key : funct7Of (encodeS f3 op rs1 rs2 imm) ++ rdOf (encodeS f3 op rs1 rs2 imm) =
      imm.extractLsb' 0 12 := by
    apply BitVec.eq_of_getLsbD_eq
    intro i hi
    simp only [funct7Of, rdOf, encodeS, BitVec.getLsbD_append, BitVec.getLsbD_extractLsb']
    interval_cases i <;> simp
  refine ⟨?_, ?_, ?_, ?_, by rw [immS, key]⟩ <;>
  · apply BitVec.eq_of_getLsbD_eq
    intro i hi
    simp only [opcodeOf, funct3Of, rs1Of, rs2Of, encodeS, BitVec.getLsbD_append,
      BitVec.getLsbD_extractLsb']
    interval_cases i <;> simp

theorem fields_encodeB (f3 : BitVec 3) (op : BitVec 7) (rs1 rs2 : RegIdx) (imm : Word) :
    opcodeOf (encodeB f3 op rs1 rs2 imm) = op ∧ funct3Of (encodeB f3 op rs1 rs2 imm) = f3 ∧
    rs1Of (encodeB f3 op rs1 rs2 imm) = rs1 ∧ rs2Of (encodeB f3 op rs1 rs2 imm) = rs2 ∧
    immB (encodeB f3 op rs1 rs2 imm) = (imm.extractLsb' 1 12 ++ 0#1).signExtend 32 := by
  refine ⟨?_, ?_, ?_, ?_, ?_⟩
  case refine_5 =>
    unfold immB
    congr 1
    apply BitVec.eq_of_getLsbD_eq
    intro i hi
    simp only [encodeB, BitVec.getLsbD_append, BitVec.getLsbD_extractLsb']
    interval_cases i <;> simp
  all_goals
    apply BitVec.eq_of_getLsbD_eq
    intro i hi
    simp only [opcodeOf, funct3Of, rs1Of, rs2Of, encodeB, BitVec.getLsbD_append,
      BitVec.getLsbD_extractLsb']
    interval_cases i <;> simp

theorem fields_encodeU (op : BitVec 7) (rd : RegIdx) (imm : Word) :
    opcodeOf (encodeU op rd imm) = op ∧ rdOf (encodeU op rd imm) = rd ∧
    immU (encodeU op rd imm) = imm.extractLsb' 12 20 ++ 0#12 := by
  refine ⟨?_, ?_, ?_⟩ <;>
  · apply BitVec.eq_of_getLsbD_eq
    intro i hi
    simp only [opcodeOf, rdOf, immU, encodeU, BitVec.getLsbD_append, BitVec.getLsbD_extractLsb']
    interval_cases i <;> simp

theorem fields_encodeJ (op : BitVec 7) (rd : RegIdx) (imm : Word) :
    opcodeOf (encodeJ op rd imm) = op ∧ rdOf (encodeJ op rd imm) = rd ∧
    immJ (encodeJ op rd imm) = (imm.extractLsb' 1 20 ++ 0#1).signExtend 32 := by
  refine ⟨?_, ?_, ?_⟩
  case refine_3 =>
    unfold immJ
    congr 1
    apply BitVec.eq_of_getLsbD_eq
    intro i hi
    simp only [encodeJ, BitVec.getLsbD_append, BitVec.getLsbD_extractLsb']
    interval_cases i <;> simp
  all_goals
    apply BitVec.eq_of_getLsbD_eq
    intro i hi
    simp only [opcodeOf, rdOf, encodeJ, BitVec.getLsbD_append, BitVec.getLsbD_extractLsb']
    interval_cases i <;> simp

/-! ## Immediates

Extending the bits of an immediate field gives back every immediate `WellFormed.lean` admits, and an
extended field is always such an immediate. -/

theorem wfImm12_iff (imm : Word) : wfImm12 imm = true ↔ -2048 ≤ imm.toInt ∧ imm.toInt ≤ 2047 := by
  simp only [wfImm12, fitsSigned, decide_eq_true_eq]; omega

theorem wfImmB_iff (imm : Word) :
    wfImmB imm = true ↔ (-4096 ≤ imm.toInt ∧ imm.toInt ≤ 4095) ∧ imm.toNat % 2 = 0 := by
  simp only [wfImmB, fitsSigned, Bool.and_eq_true, decide_eq_true_eq]; omega

theorem wfImmJ_iff (imm : Word) :
    wfImmJ imm = true ↔ (-1048576 ≤ imm.toInt ∧ imm.toInt ≤ 1048575) ∧ imm.toNat % 2 = 0 := by
  simp only [wfImmJ, fitsSigned, Bool.and_eq_true, decide_eq_true_eq]; omega

/-- Zeros appended below multiply. -/
theorem toNat_append_zeros {n m : Nat} (v : BitVec n) : (v ++ 0#m).toNat = v.toNat * 2 ^ m := by
  rw [BitVec.toNat_append, BitVec.toNat_ofNat, Nat.zero_mod, Nat.or_zero, Nat.shiftLeft_eq]

theorem signExtend_imm12 {imm : Word} (h : wfImm12 imm = true) :
    (imm.extractLsb' 0 12).signExtend 32 = imm := by
  rw [wfImm12_iff] at h
  apply BitVec.eq_of_toInt_eq
  rw [BitVec.toInt_signExtend_of_le (by omega), BitVec.toInt_extractLsb', Nat.shiftRight_zero]
  rw [BitVec.toInt_eq_toNat_cond] at h ⊢
  simp only [Int.bmod]
  split at h <;> split <;> omega

theorem signExtend_immB {imm : Word} (h : wfImmB imm = true) :
    (imm.extractLsb' 1 12 ++ 0#1).signExtend 32 = imm := by
  rw [wfImmB_iff] at h
  have key : imm.extractLsb' 1 12 ++ 0#1 = imm.extractLsb' 0 13 := by
    apply BitVec.eq_of_toNat_eq
    rw [toNat_append_zeros]
    simp only [BitVec.extractLsb'_toNat, Nat.shiftRight_eq_div_pow]
    omega
  rw [key]
  apply BitVec.eq_of_toInt_eq
  rw [BitVec.toInt_signExtend_of_le (by omega), BitVec.toInt_extractLsb', Nat.shiftRight_zero]
  rw [BitVec.toInt_eq_toNat_cond] at h ⊢
  simp only [Int.bmod]
  split at h <;> split <;> omega

theorem signExtend_immJ {imm : Word} (h : wfImmJ imm = true) :
    (imm.extractLsb' 1 20 ++ 0#1).signExtend 32 = imm := by
  rw [wfImmJ_iff] at h
  have key : imm.extractLsb' 1 20 ++ 0#1 = imm.extractLsb' 0 21 := by
    apply BitVec.eq_of_toNat_eq
    rw [toNat_append_zeros]
    simp only [BitVec.extractLsb'_toNat, Nat.shiftRight_eq_div_pow]
    omega
  rw [key]
  apply BitVec.eq_of_toInt_eq
  rw [BitVec.toInt_signExtend_of_le (by omega), BitVec.toInt_extractLsb', Nat.shiftRight_zero]
  rw [BitVec.toInt_eq_toNat_cond] at h ⊢
  simp only [Int.bmod]
  split at h <;> split <;> omega

theorem append_immU {imm : Word} (h : wfImmU imm = true) : imm.extractLsb' 12 20 ++ 0#12 = imm := by
  rw [wfImmU, decide_eq_true_eq] at h
  apply BitVec.eq_of_toNat_eq
  rw [toNat_append_zeros]
  simp only [BitVec.extractLsb'_toNat, Nat.shiftRight_eq_div_pow]
  omega

theorem wfImm12_signExtend (v : BitVec 12) : wfImm12 (v.signExtend 32) = true := by
  rw [wfImm12_iff, BitVec.toInt_signExtend_of_le (by omega), BitVec.toInt_eq_toNat_cond]
  split <;> omega

theorem signExtend_append_even {n : Nat} (hn : n + 1 ≤ 32) (v : BitVec n) :
    ((v ++ 0#1).signExtend 32).toNat % 2 = 0 := by
  have h : ((v ++ 0#1).signExtend 32).getLsbD 0 = false := by
    rw [BitVec.getLsbD_signExtend, if_pos (by omega), BitVec.getLsbD_append]
    simp
  simpa [BitVec.getLsbD, Nat.testBit_zero] using h

theorem wfImmB_signExtend (v : BitVec 12) : wfImmB ((v ++ 0#1).signExtend 32) = true := by
  rw [wfImmB_iff]
  refine ⟨?_, signExtend_append_even (by omega) v⟩
  rw [BitVec.toInt_signExtend_of_le (by omega), BitVec.toInt_eq_toNat_cond]
  split <;> omega

theorem wfImmJ_signExtend (v : BitVec 20) : wfImmJ ((v ++ 0#1).signExtend 32) = true := by
  rw [wfImmJ_iff]
  refine ⟨?_, signExtend_append_even (by omega) v⟩
  rw [BitVec.toInt_signExtend_of_le (by omega), BitVec.toInt_eq_toNat_cond]
  split <;> omega

theorem immI_wf (w : Word) : wfImm12 (immI w) = true := wfImm12_signExtend _

theorem immS_wf (w : Word) : wfImm12 (immS w) = true := wfImm12_signExtend _

theorem immB_wf (w : Word) : wfImmB (immB w) = true := wfImmB_signExtend _

theorem immJ_wf (w : Word) : wfImmJ (immJ w) = true := wfImmJ_signExtend _

theorem immU_wf (w : Word) : wfImmU (immU w) = true := by
  rw [wfImmU, decide_eq_true_eq, immU, toNat_append_zeros]
  omega

/-! ## What the decoder can answer -/

/-- The decoder gives only well-formed instructions (R100). -/
theorem decode_wf {w : Word} {i : Instr} (h : decode w = .ok i) : i.wf = true := by
  unfold decode decodeJalr decodeBranch decodeLoad decodeStore decodeOpImm decodeOp decodeMiscMem
    decodeSystem at h
  repeat' split at h
  all_goals first
    | contradiction
    | (obtain rfl := Except.ok.inj h
       first
         | rfl
         | exact immI_wf w
         | exact immU_wf w
         | exact immJ_wf w
         | exact immB_wf w
         | exact immS_wf w)

/-- The all-zero word is no instruction (R115). -/
theorem decode_zero : decode 0#32 = .error .unknownOpcode := rfl

end Sys2Proof
end

