-- ==== Sys2Proof/Laws/Exec.lean ====
section
/-! SUPPORT. Everything an instruction can do, said once: `exec_shape` gives each instruction one of
seven shapes, and later proofs are case analyses over them. -/
namespace Sys2Proof.Machine

/-- The shapes of `exec i s`. -/
inductive ExecShape (i : Instr) (s : State) : Result → Prop
  /-- A trap: only the run status changes (R264). -/
  | trap (k : TrapKind) : ExecShape i s (.next (s.setStatus (.trapped k)))
  /-- A result written to `rd`, the PC in sequence (R137). -/
  | result (rd : RegIdx) (v : Word) (hd : destination i = some rd)
      (hc : transfersControl i = false) (hs : isStore i = false) :
      ExecShape i s (.next (s.writeReg rd v).advance)
  /-- A jump with link to an aligned target (R200, R201). -/
  | jump (rd : RegIdx) (target : Word) (hd : destination i = some rd)
      (hc : transfersControl i = true) (hs : isStore i = false)
      (hm : misaligned target = false)
      (he : i.wf = true → s.pc.toNat % 4 = 0 → target.toNat % 2 = 0) :
      ExecShape i s (.next ((s.writeReg rd s.nextPc).setPc target))
  /-- A taken branch to an aligned target (R202). -/
  | taken (target : Word) (hd : destination i = none) (hc : transfersControl i = true)
      (hs : isStore i = false) (hm : misaligned target = false)
      (he : i.wf = true → s.pc.toNat % 4 = 0 → target.toNat % 2 = 0) :
      ExecShape i s (.next (s.setPc target))
  /-- A branch not taken or a fence: the PC in sequence (R202, R242). -/
  | sequential (hd : destination i = none) (hs : isStore i = false) :
      ExecShape i s (.next s.advance)
  /-- A store in range (R226). -/
  | store (w : Width) (ea v : Word) (hd : destination i = none) (hs : isStore i = true)
      (hc : transfersControl i = false) (hr : ea.toNat + w.bytes ≤ s.mem.size) :
      ExecShape i s (.next (s.setMem (s.mem.store ea.toNat v w.bytes)).advance)
  /-- The exit call (R240). -/
  | exit (hi : i = .ecall) (ha : s.readReg a7 = Config.exitSyscall) :
      ExecShape i s (.next (s.advance.setStatus (.exitedNormally (s.readReg a0).toInt)))

theorem shape_jump {i : Instr} {s : State} {rd : RegIdx} {target : Word}
    (hd : destination i = some rd) (hc : transfersControl i = true) (hs : isStore i = false)
    (he : i.wf = true → s.pc.toNat % 4 = 0 → target.toNat % 2 = 0) :
    ExecShape i s (jumpAndLink rd target s) := by
  unfold jumpAndLink
  split
  · exact .trap _
  · exact .jump rd target hd hc hs (by simpa using ‹¬misaligned target = true›) he

theorem shape_branch {i : Instr} {s : State} {c : Bool} {imm : Word} (hd : destination i = none)
    (hc : transfersControl i = true) (hs : isStore i = false)
    (hi : i.wf = true → wfImmB imm = true) : ExecShape i s (branch c imm s) := by
  unfold branch
  split
  · split
    · exact .trap _
    · exact .taken _ hd hc hs (by simpa using ‹¬misaligned _ = true›) fun hw hp =>
        pcRelative_even hp ((wfImmB_iff imm).mp (hi hw)).2
  · exact .sequential hd hs

theorem shape_load {i : Instr} {s : State} {w : Width} {f : BitVec w.bits → Word} {rd : RegIdx}
    {ea : Word} (hd : destination i = some rd) (hc : transfersControl i = false)
    (hs : isStore i = false) : ExecShape i s (loadInto w f rd ea s) := by
  rcases loadInto_cases w f rd ea s with ⟨_, h⟩ | ⟨_, h⟩ <;> rw [h]
  · exact .trap _
  · exact .result rd _ hd hc hs

theorem shape_store {i : Instr} {s : State} {w : Width} {ea v : Word} (hd : destination i = none)
    (hc : transfersControl i = false) (hs : isStore i = true) :
    ExecShape i s (storeFrom w ea v s) := by
  rcases storeFrom_cases w ea v s with ⟨_, h⟩ | ⟨hr, h⟩ <;> rw [h]
  · exact .trap _
  · exact .store w ea v hd hs hc hr

/-- Every instruction answers a next state, of one of the seven shapes. -/
theorem exec_shape (i : Instr) (s : State) : ExecShape i s (exec i s) := by
  cases i with
  | jal rd imm =>
    exact shape_jump rfl rfl rfl fun hw hp => pcRelative_even hp ((wfImmJ_iff imm).mp hw).2
  | jalr rd rs1 imm => exact shape_jump rfl rfl rfl fun _ _ => jalrTarget_even s rs1 imm
  | beq | bne | blt | bge | bltu | bgeu => exact shape_branch rfl rfl rfl id
  | lb | lh | lw | lbu | lhu => exact shape_load rfl rfl rfl
  | sb | sh | sw => exact shape_store rfl rfl rfl
  | fence => exact .sequential rfl rfl
  | ebreak => exact .trap _
  | ecall =>
    simp only [exec, execEcall]
    split
    · exact .exit rfl ‹_›
    · exact .trap _
  | _ => exact .result _ _ rfl rfl rfl

/-- What an instruction can do, as a next state and its shape. -/
theorem exec_next (i : Instr) (s : State) :
    ∃ t, exec i s = .next t ∧ ExecShape i s (.next t) := by
  have h := exec_shape i s
  generalize he : exec i s = r at h ⊢
  cases h with
  | trap k => exact ⟨_, rfl, .trap k⟩
  | result rd v hd hc hs => exact ⟨_, rfl, .result rd v hd hc hs⟩
  | jump rd t hd hc hs hm hE => exact ⟨_, rfl, .jump rd t hd hc hs hm hE⟩
  | taken t hd hc hs hm hE => exact ⟨_, rfl, .taken t hd hc hs hm hE⟩
  | sequential hd hs => exact ⟨_, rfl, .sequential hd hs⟩
  | store w ea v hd hs hc hr => exact ⟨_, rfl, .store w ea v hd hs hc hr⟩
  | exit hi ha => exact ⟨_, rfl, .exit hi ha⟩

end Sys2Proof.Machine
end

