-- ==== Sys2Proof/Laws/Step.lean ====
section
/-! SUPPORT. Everything a step can do, said once: `step_cases`. -/
namespace Sys2Proof.Machine

/-- The four ways a cycle ends (R130 to R135, R263), in the order they are tested. -/
inductive CycleShape (s : State) : State → Prop
  /-- The fetch fails (R133). -/
  | fetchFails (h : s.fetch = none) : CycleShape s (s.setStatus (.trapped .fetchOutOfRange))
  /-- The zero sentinel (R132). -/
  | sentinel (h : s.fetch = some 0#32) : CycleShape s (s.setStatus .terminated)
  /-- The word does not decode (R134). -/
  | illegal (w : Word) (h : s.fetch = some w) (hw : w ≠ 0#32) (r : Reject)
      (hd : decode w = .error r) : CycleShape s (s.setStatus (.trapped .illegalInstruction))
  /-- The instruction executes (R135). -/
  | executes (w : Word) (i : Instr) (t : State) (h : s.fetch = some w) (hw : w ≠ 0#32)
      (hd : decode w = .ok i) (he : exec i s = .next t) : CycleShape s t

/-- A cycle always answers a next state, in one of the four ways. -/
theorem cycle_next (s : State) : ∃ t, cycle s = .next t ∧ CycleShape s t := by
  unfold cycle
  cases h : s.fetch with
  | none => exact ⟨_, rfl, .fetchFails h⟩
  | some w =>
    simp only [executeWord]
    split
    · subst w; exact ⟨_, rfl, .sentinel h⟩
    · rename_i hw
      cases hd : decode w with
      | error r => exact ⟨_, rfl, .illegal w h hw r hd⟩
      | ok i =>
        obtain ⟨t, he, _⟩ := exec_next i s
        exact ⟨t, he, .executes w i t h hw hd he⟩

/-- From a running state a step is a cycle with its debug record added. -/
theorem step_running {s : State} (h : s.status = .running) :
    ∃ t, cycle s = .next t ∧ CycleShape s t ∧ step s = .next (withRecord s t) := by
  obtain ⟨t, hc, hs⟩ := cycle_next s
  exact ⟨t, hc, hs, by simp [step, h, stepRunning, hc]⟩

/-- From a final status there is no step (R131). -/
theorem step_final {s : State} (h : s.status ≠ .running) : step s = .fault .runEnded := by
  unfold step; split <;> first | contradiction | rfl

/-- What a step that answers a next state can do: it began in `Running`, and the next state is a
cycle's with its debug record added. -/
theorem step_cases {s u : State} (h : step s = .next u) :
    s.status = .running ∧ ∃ t, CycleShape s t ∧ u = withRecord s t := by
  by_cases hr : s.status = .running
  · obtain ⟨t, _, hs, he⟩ := step_running hr
    rw [he] at h
    exact ⟨hr, t, hs, (Host.Outcome.next.inj h).symm⟩
  · rw [step_final hr] at h
    cases h

end Sys2Proof.Machine
end

