-- ==== Sys2Proof/Laws/Debug.lean ====
section
/-! SUPPORT. No meaning reads the debug input or the debug stream: `cycle_withDebug` (R140). -/
namespace Sys2Proof.Machine

/-- The state with another debug input and stream. -/
def withDebug (b : Bool) (d : List DumpRecord) (s : State) : State := { s with debug := b, dump := d }

/-- The same change on the answer of a meaning. -/
def mapDebug (b : Bool) (d : List DumpRecord) : Result → Result
  | .next s => .next (withDebug b d s)
  | .fault f => .fault f
  | .refused r => .refused r

variable (b : Bool) (d : List DumpRecord) (s : State)

theorem readReg_withDebug (r : RegIdx) : (withDebug b d s).readReg r = s.readReg r := rfl

theorem writeReg_withDebug (r : RegIdx) (v : Word) :
    (withDebug b d s).writeReg r v = withDebug b d (s.writeReg r v) := by
  unfold State.writeReg; split <;> rfl

theorem writeResult_withDebug (rd : RegIdx) (v : Word) :
    writeResult rd v (withDebug b d s) = mapDebug b d (writeResult rd v s) := by
  simp only [writeResult, mapDebug, writeReg_withDebug]; rfl

theorem jumpAndLink_withDebug (rd : RegIdx) (v : Word) :
    jumpAndLink rd v (withDebug b d s) = mapDebug b d (jumpAndLink rd v s) := by
  simp only [jumpAndLink, writeReg_withDebug]; split <;> rfl

theorem branch_withDebug (c : Bool) (v : Word) :
    branch c v (withDebug b d s) = mapDebug b d (branch c v s) := by
  have h : pcRelative (withDebug b d s) v = pcRelative s v := rfl
  cases c
  · rfl
  · simp only [branch, if_true, h]; split <;> rfl

theorem loadInto_withDebug (w : Width) (f : BitVec w.bits → Word) (rd : RegIdx) (v : Word) :
    loadInto w f rd v (withDebug b d s) = mapDebug b d (loadInto w f rd v s) := by
  have h : (withDebug b d s).memRead v w = s.memRead v w := rfl
  simp only [loadInto, h]; split
  · rfl
  · exact writeResult_withDebug ..

theorem storeFrom_withDebug (w : Width) (ea v : Word) :
    storeFrom w ea v (withDebug b d s) = mapDebug b d (storeFrom w ea v s) := by
  have hm : (withDebug b d s).mem = s.mem := rfl
  simp only [storeFrom, State.memWrite, hm]
  cases s.mem.inRange ea.toNat w.bytes <;> rfl

theorem exec_withDebug (i : Instr) : exec i (withDebug b d s) = mapDebug b d (exec i s) := by
  cases i with
  | jal | jalr => exact jumpAndLink_withDebug ..
  | beq | bne | blt | bge | bltu | bgeu => exact branch_withDebug ..
  | lb | lh | lw | lbu | lhu => exact loadInto_withDebug ..
  | sb | sh | sw => exact storeFrom_withDebug ..
  | fence => rfl
  | ebreak => rfl
  | ecall => simp only [exec, execEcall, readReg_withDebug]; split <;> rename_i h <;> simp [h] <;> rfl
  | _ => exact writeResult_withDebug ..

theorem cycle_withDebug : cycle (withDebug b d s) = mapDebug b d (cycle s) := by
  have hf : (withDebug b d s).fetch = s.fetch := rfl
  simp only [cycle, hf]
  cases s.fetch with
  | none => rfl
  | some w =>
    simp only [executeWord]
    split
    · rfl
    · split
      · rfl
      · exact exec_withDebug ..

end Sys2Proof.Machine
end

