-- ==== Sys2Proof/Laws/Effects.lean ====
section
/-! SUPPORT. The frames of Safety for the updates the instructions are made of. -/
namespace Sys2Proof.Machine

theorem registerEffect_result (s : State) (rd : RegIdx) (v : Word) :
    RegisterEffect s (s.writeReg rd v).advance rd v (s.pc + 4#32) := by
  refine ⟨fun r => ?_, by simp, ⟨by simp, fun a => by simp⟩, by simp [ControlKept]⟩
  rw [State.advance_readReg, readReg_writeReg]

theorem registerEffect_jump (s : State) (rd : RegIdx) (v target : Word) :
    RegisterEffect s ((s.writeReg rd v).setPc target) rd v target := by
  refine ⟨fun r => ?_, by simp, ⟨by simp, fun a => by simp⟩, by simp [ControlKept]⟩
  rw [State.setPc_readReg, readReg_writeReg]

theorem pcEffect_setPc (s : State) (target : Word) : PcEffect s (s.setPc target) target := by
  simp [PcEffect, RegistersKept, MemoryKept, ControlKept]

theorem pcEffect_advance (s : State) : PcEffect s s.advance (s.pc + 4#32) := pcEffect_setPc s _

theorem storeEffect_store (s : State) (a n : Nat) (v : Word) :
    StoreEffect s (s.setMem (s.mem.store a v n)).advance a n v := by
  refine ⟨fun k hk => ?_, fun b hb => ?_, by simp, by simp, fun r => by simp, by simp [ControlKept]⟩
  · simp [readByte_store, hk, byteOf]
  · rw [State.advance_mem, State.setMem_mem, readByte_store, if_neg (by omega)]

end Sys2Proof.Machine
end

