-- ==== Sys2Proof/Laws/PerInstr.lean ====
section
/-! SUPPORT. Laws made per instruction, one lemma for each constructor of Instr. -/

/-- The word an instruction encodes to has a primary opcode of the instruction's own format (R91,
R101). -/
def Sys2Proof.Laws.OpcodeFormat.Statement (i : Sys2Proof.Instr) : Prop :=
  Sys2Proof.formatOfOpcode (Sys2Proof.opcodeOf (Sys2Proof.encode i)) = some i.format

namespace Sys2Proof.Laws

theorem opcodeFormat_of {i : Instr} {op : BitVec 7} (h : opcodeOf (encode i) = op)
    (hf : formatOfOpcode op = some i.format) : OpcodeFormat.Statement i := by
  rw [OpcodeFormat.Statement, h, hf]

theorem OpcodeFormat.addi (rd rs1 : RegIdx) (imm : Word) :
    OpcodeFormat.Statement (.addi rd rs1 imm) := opcodeFormat_of (fields_encodeI _ _ _ _ _).1 rfl
theorem OpcodeFormat.slti (rd rs1 : RegIdx) (imm : Word) :
    OpcodeFormat.Statement (.slti rd rs1 imm) := opcodeFormat_of (fields_encodeI _ _ _ _ _).1 rfl
theorem OpcodeFormat.sltiu (rd rs1 : RegIdx) (imm : Word) :
    OpcodeFormat.Statement (.sltiu rd rs1 imm) := opcodeFormat_of (fields_encodeI _ _ _ _ _).1 rfl
theorem OpcodeFormat.xori (rd rs1 : RegIdx) (imm : Word) :
    OpcodeFormat.Statement (.xori rd rs1 imm) := opcodeFormat_of (fields_encodeI _ _ _ _ _).1 rfl
theorem OpcodeFormat.ori (rd rs1 : RegIdx) (imm : Word) :
    OpcodeFormat.Statement (.ori rd rs1 imm) := opcodeFormat_of (fields_encodeI _ _ _ _ _).1 rfl
theorem OpcodeFormat.andi (rd rs1 : RegIdx) (imm : Word) :
    OpcodeFormat.Statement (.andi rd rs1 imm) := opcodeFormat_of (fields_encodeI _ _ _ _ _).1 rfl
theorem OpcodeFormat.slli (rd rs1 : RegIdx) (shamt : BitVec 5) :
    OpcodeFormat.Statement (.slli rd rs1 shamt) := opcodeFormat_of (fields_encodeR _ _ _ _ _ _).1 rfl
theorem OpcodeFormat.srli (rd rs1 : RegIdx) (shamt : BitVec 5) :
    OpcodeFormat.Statement (.srli rd rs1 shamt) := opcodeFormat_of (fields_encodeR _ _ _ _ _ _).1 rfl
theorem OpcodeFormat.srai (rd rs1 : RegIdx) (shamt : BitVec 5) :
    OpcodeFormat.Statement (.srai rd rs1 shamt) := opcodeFormat_of (fields_encodeR _ _ _ _ _ _).1 rfl
theorem OpcodeFormat.add (rd rs1 rs2 : RegIdx) :
    OpcodeFormat.Statement (.add rd rs1 rs2) := opcodeFormat_of (fields_encodeR _ _ _ _ _ _).1 rfl
theorem OpcodeFormat.sub (rd rs1 rs2 : RegIdx) :
    OpcodeFormat.Statement (.sub rd rs1 rs2) := opcodeFormat_of (fields_encodeR _ _ _ _ _ _).1 rfl
theorem OpcodeFormat.sll (rd rs1 rs2 : RegIdx) :
    OpcodeFormat.Statement (.sll rd rs1 rs2) := opcodeFormat_of (fields_encodeR _ _ _ _ _ _).1 rfl
theorem OpcodeFormat.slt (rd rs1 rs2 : RegIdx) :
    OpcodeFormat.Statement (.slt rd rs1 rs2) := opcodeFormat_of (fields_encodeR _ _ _ _ _ _).1 rfl
theorem OpcodeFormat.sltu (rd rs1 rs2 : RegIdx) :
    OpcodeFormat.Statement (.sltu rd rs1 rs2) := opcodeFormat_of (fields_encodeR _ _ _ _ _ _).1 rfl
theorem OpcodeFormat.xor (rd rs1 rs2 : RegIdx) :
    OpcodeFormat.Statement (.xor rd rs1 rs2) := opcodeFormat_of (fields_encodeR _ _ _ _ _ _).1 rfl
theorem OpcodeFormat.srl (rd rs1 rs2 : RegIdx) :
    OpcodeFormat.Statement (.srl rd rs1 rs2) := opcodeFormat_of (fields_encodeR _ _ _ _ _ _).1 rfl
theorem OpcodeFormat.sra (rd rs1 rs2 : RegIdx) :
    OpcodeFormat.Statement (.sra rd rs1 rs2) := opcodeFormat_of (fields_encodeR _ _ _ _ _ _).1 rfl
theorem OpcodeFormat.or (rd rs1 rs2 : RegIdx) :
    OpcodeFormat.Statement (.or rd rs1 rs2) := opcodeFormat_of (fields_encodeR _ _ _ _ _ _).1 rfl
theorem OpcodeFormat.and (rd rs1 rs2 : RegIdx) :
    OpcodeFormat.Statement (.and rd rs1 rs2) := opcodeFormat_of (fields_encodeR _ _ _ _ _ _).1 rfl
theorem OpcodeFormat.lui (rd : RegIdx) (imm : Word) :
    OpcodeFormat.Statement (.lui rd imm) := opcodeFormat_of (fields_encodeU _ _ _).1 rfl
theorem OpcodeFormat.auipc (rd : RegIdx) (imm : Word) :
    OpcodeFormat.Statement (.auipc rd imm) := opcodeFormat_of (fields_encodeU _ _ _).1 rfl
theorem OpcodeFormat.jal (rd : RegIdx) (imm : Word) :
    OpcodeFormat.Statement (.jal rd imm) := opcodeFormat_of (fields_encodeJ _ _ _).1 rfl
theorem OpcodeFormat.jalr (rd rs1 : RegIdx) (imm : Word) :
    OpcodeFormat.Statement (.jalr rd rs1 imm) := opcodeFormat_of (fields_encodeI _ _ _ _ _).1 rfl
theorem OpcodeFormat.beq (rs1 rs2 : RegIdx) (imm : Word) :
    OpcodeFormat.Statement (.beq rs1 rs2 imm) := opcodeFormat_of (fields_encodeB _ _ _ _ _).1 rfl
theorem OpcodeFormat.bne (rs1 rs2 : RegIdx) (imm : Word) :
    OpcodeFormat.Statement (.bne rs1 rs2 imm) := opcodeFormat_of (fields_encodeB _ _ _ _ _).1 rfl
theorem OpcodeFormat.blt (rs1 rs2 : RegIdx) (imm : Word) :
    OpcodeFormat.Statement (.blt rs1 rs2 imm) := opcodeFormat_of (fields_encodeB _ _ _ _ _).1 rfl
theorem OpcodeFormat.bge (rs1 rs2 : RegIdx) (imm : Word) :
    OpcodeFormat.Statement (.bge rs1 rs2 imm) := opcodeFormat_of (fields_encodeB _ _ _ _ _).1 rfl
theorem OpcodeFormat.bltu (rs1 rs2 : RegIdx) (imm : Word) :
    OpcodeFormat.Statement (.bltu rs1 rs2 imm) := opcodeFormat_of (fields_encodeB _ _ _ _ _).1 rfl
theorem OpcodeFormat.bgeu (rs1 rs2 : RegIdx) (imm : Word) :
    OpcodeFormat.Statement (.bgeu rs1 rs2 imm) := opcodeFormat_of (fields_encodeB _ _ _ _ _).1 rfl
theorem OpcodeFormat.lb (rd rs1 : RegIdx) (imm : Word) :
    OpcodeFormat.Statement (.lb rd rs1 imm) := opcodeFormat_of (fields_encodeI _ _ _ _ _).1 rfl
theorem OpcodeFormat.lh (rd rs1 : RegIdx) (imm : Word) :
    OpcodeFormat.Statement (.lh rd rs1 imm) := opcodeFormat_of (fields_encodeI _ _ _ _ _).1 rfl
theorem OpcodeFormat.lw (rd rs1 : RegIdx) (imm : Word) :
    OpcodeFormat.Statement (.lw rd rs1 imm) := opcodeFormat_of (fields_encodeI _ _ _ _ _).1 rfl
theorem OpcodeFormat.lbu (rd rs1 : RegIdx) (imm : Word) :
    OpcodeFormat.Statement (.lbu rd rs1 imm) := opcodeFormat_of (fields_encodeI _ _ _ _ _).1 rfl
theorem OpcodeFormat.lhu (rd rs1 : RegIdx) (imm : Word) :
    OpcodeFormat.Statement (.lhu rd rs1 imm) := opcodeFormat_of (fields_encodeI _ _ _ _ _).1 rfl
theorem OpcodeFormat.sb (rs1 rs2 : RegIdx) (imm : Word) :
    OpcodeFormat.Statement (.sb rs1 rs2 imm) := opcodeFormat_of (fields_encodeS _ _ _ _ _).1 rfl
theorem OpcodeFormat.sh (rs1 rs2 : RegIdx) (imm : Word) :
    OpcodeFormat.Statement (.sh rs1 rs2 imm) := opcodeFormat_of (fields_encodeS _ _ _ _ _).1 rfl
theorem OpcodeFormat.sw (rs1 rs2 : RegIdx) (imm : Word) :
    OpcodeFormat.Statement (.sw rs1 rs2 imm) := opcodeFormat_of (fields_encodeS _ _ _ _ _).1 rfl
theorem OpcodeFormat.fence (modes : BitVec 12) (rs1 rd : RegIdx) :
    OpcodeFormat.Statement (.fence modes rs1 rd) := opcodeFormat_of (fields_encodeI _ _ _ _ _).1 rfl
theorem OpcodeFormat.ecall :
    OpcodeFormat.Statement .ecall := rfl
theorem OpcodeFormat.ebreak :
    OpcodeFormat.Statement .ebreak := rfl

end Sys2Proof.Laws
end

