-- ==== Sys2Proof/Tests/Slice0.lean ====
section
/-! SUPPORT. The model's own tests. Every expected value is taken from the spec: words from its encoding
rules and its encoding examples (30_encoding.md), results from 95_test_vectors.md. The witnesses show
that the hypotheses of each statement can be met. -/
namespace Sys2Proof.Tests
open Sys2Proof Sys2Proof.Machine Sys2Proof.Claims

/-! ## The bench: PC 0x100, MEM_SIZE 0x1000, the bytes of the load and store table (95, section 2.5) -/

/-- The bytes of memory the vectors of section 2.5 list. -/
def benchCells : List Host.Cell :=
  [(0x000, 0x9A#8), (0x001, 0xBC#8), (0x002, 0xDE#8), (0x003, 0xF0#8),
    (0xFFC, 0x11#8), (0xFFD, 0x22#8), (0xFFE, 0x83#8), (0xFFF, 0x84#8)]

/-- The bench with these registers, before an instruction is placed. -/
def bench (regs : List (RegIdx × Word)) : State :=
  regs.foldl (fun s p => s.writeReg p.1 p.2)
    { State.reset with pc := 0x100#32, mem := { size := 0x1000, cells := benchCells } }

/-- The bench with these registers and this word at the PC. -/
def placed (w : Nat) (regs : List (RegIdx × Word)) : State := (bench regs).withFetchWord 32 w

/-- The answer is a next state of which `p` holds. -/
def nextWith (r : Result) (p : State → Bool) : Bool :=
  match r with
  | .next t => p t
  | .fault _ => false
  | .refused _ => false

theorem exists_of_nextWith {r : Result} {p : State → Bool} (h : nextWith r p = true) :
    ∃ t, r = .next t ∧ p t = true := by
  cases r with
  | next t => exact ⟨t, rfl, h⟩
  | fault | refused => cases h

/-- One step from `s` leaves the run going, register `r` at `v` and the PC at `pc`. -/
def gives (s : State) (r : RegIdx) (v pc : Word) : Bool :=
  nextWith (step s) fun t =>
    t.readReg r == v && t.pc == pc && decide (t.status = .running) && decide (t.mem = s.mem)

/-- One step from `s` leaves the run going, these bytes of memory, and the PC in sequence. -/
def leaves (s : State) (bytes : List (Nat × Byte)) : Bool :=
  nextWith (step s) fun t =>
    bytes.all (fun p => t.mem.readByte p.1 == p.2) && t.pc == s.pc + 4#32 &&
      decide (t.status = .running)

/-- One step from `s` is a precise trap of kind `k`. -/
def traps (s : State) (k : TrapKind) : Bool :=
  nextWith (step s) fun t => decide (t = { s with status := .trapped k })

/-- The word does not decode. -/
def rejected (w : Word) : Bool :=
  match decode w with
  | .ok _ => false
  | .error _ => true

theorem rejected_of {w : Word} (h : rejected w = true) : Rejected w := by
  unfold rejected at h
  split at h
  · cases h
  · rename_i r hr; exact ⟨r, hr⟩

/-! ## WellFormed: every check accepts its bounds and refuses what lies past them -/

theorem test_wf_imm12_bounds :
    Instr.wf (.addi 10#5 11#5 2047#32) = true ∧ Instr.wf (.addi 10#5 11#5 (-2048#32)) = true := by
  decide
theorem test_wf_imm12_refused :
    Instr.wf (.addi 10#5 11#5 2048#32) = false ∧ Instr.wf (.lw 10#5 11#5 (-2049#32)) = false ∧
    Instr.wf (.sw 10#5 11#5 2048#32) = false ∧ Instr.wf (.jalr 0#5 1#5 0x800#32) = false := by decide
theorem test_wf_branch_bounds :
    Instr.wf (.beq 0#5 0#5 4094#32) = true ∧ Instr.wf (.beq 0#5 0#5 (-4096#32)) = true := by decide
theorem test_wf_branch_range_refused :
    Instr.wf (.beq 0#5 0#5 4096#32) = false ∧ Instr.wf (.bgeu 0#5 0#5 (-4098#32)) = false := by decide
theorem test_wf_branch_odd_refused : Instr.wf (.bne 0#5 0#5 7#32) = false := by decide
theorem test_wf_jump_bounds :
    Instr.wf (.jal 1#5 1048574#32) = true ∧ Instr.wf (.jal 1#5 (-1048576#32)) = true := by decide
theorem test_wf_jump_range_refused :
    Instr.wf (.jal 1#5 1048576#32) = false ∧ Instr.wf (.jal 1#5 (-1048578#32)) = false := by decide
theorem test_wf_jump_odd_refused : Instr.wf (.jal 1#5 3#32) = false := by decide
theorem test_wf_upper_bits_refused :
    Instr.wf (.lui 10#5 0x1001#32) = false ∧ Instr.wf (.auipc 10#5 0x800#32) = false ∧
    Instr.wf (.lui 10#5 0xFFFFF000#32) = true := by decide

/-! ## Decode: each constructor by a word written out field by field (R93 to R98, R102 to R110) -/

theorem test_decode_immediates :
    decode (0b111111111111#12 ++ 0b00101#5 ++ 0b000#3 ++ 0b01010#5 ++ 0b0010011#7) =
      .ok (.addi 10#5 5#5 0xFFFFFFFF#32) ∧
    decode (0b100000000000#12 ++ 0b00101#5 ++ 0b010#3 ++ 0b01010#5 ++ 0b0010011#7) =
      .ok (.slti 10#5 5#5 0xFFFFF800#32) ∧
    decode (0b011111111111#12 ++ 0b00101#5 ++ 0b011#3 ++ 0b01010#5 ++ 0b0010011#7) =
      .ok (.sltiu 10#5 5#5 0x000007FF#32) ∧
    decode (0b111111111111#12 ++ 0b00101#5 ++ 0b100#3 ++ 0b01010#5 ++ 0b0010011#7) =
      .ok (.xori 10#5 5#5 0xFFFFFFFF#32) ∧
    decode (0b111111110000#12 ++ 0b00101#5 ++ 0b110#3 ++ 0b01010#5 ++ 0b0010011#7) =
      .ok (.ori 10#5 5#5 0xFFFFFFF0#32) ∧
    decode (0b011111111111#12 ++ 0b00101#5 ++ 0b111#3 ++ 0b01010#5 ++ 0b0010011#7) =
      .ok (.andi 10#5 5#5 0x000007FF#32) := by decide
theorem test_decode_shift_immediates :
    decode (0b0000000#7 ++ 0b11111#5 ++ 0b00101#5 ++ 0b001#3 ++ 0b01010#5 ++ 0b0010011#7) =
      .ok (.slli 10#5 5#5 31#5) ∧
    decode (0b0000000#7 ++ 0b00001#5 ++ 0b00101#5 ++ 0b101#3 ++ 0b01010#5 ++ 0b0010011#7) =
      .ok (.srli 10#5 5#5 1#5) ∧
    decode (0b0100000#7 ++ 0b00100#5 ++ 0b00101#5 ++ 0b101#3 ++ 0b01010#5 ++ 0b0010011#7) =
      .ok (.srai 10#5 5#5 4#5) := by decide
theorem test_decode_register_forms :
    decode (0b0000000#7 ++ 0b00110#5 ++ 0b00101#5 ++ 0b000#3 ++ 0b01010#5 ++ 0b0110011#7) =
      .ok (.add 10#5 5#5 6#5) ∧
    decode (0b0100000#7 ++ 0b00110#5 ++ 0b00101#5 ++ 0b000#3 ++ 0b01010#5 ++ 0b0110011#7) =
      .ok (.sub 10#5 5#5 6#5) ∧
    decode (0b0000000#7 ++ 0b00110#5 ++ 0b00101#5 ++ 0b001#3 ++ 0b01010#5 ++ 0b0110011#7) =
      .ok (.sll 10#5 5#5 6#5) ∧
    decode (0b0000000#7 ++ 0b00110#5 ++ 0b00101#5 ++ 0b010#3 ++ 0b01010#5 ++ 0b0110011#7) =
      .ok (.slt 10#5 5#5 6#5) ∧
    decode (0b0000000#7 ++ 0b00110#5 ++ 0b00101#5 ++ 0b011#3 ++ 0b01010#5 ++ 0b0110011#7) =
      .ok (.sltu 10#5 5#5 6#5) ∧
    decode (0b0000000#7 ++ 0b00110#5 ++ 0b00101#5 ++ 0b100#3 ++ 0b01010#5 ++ 0b0110011#7) =
      .ok (.xor 10#5 5#5 6#5) ∧
    decode (0b0000000#7 ++ 0b00110#5 ++ 0b00101#5 ++ 0b101#3 ++ 0b01010#5 ++ 0b0110011#7) =
      .ok (.srl 10#5 5#5 6#5) ∧
    decode (0b0100000#7 ++ 0b00110#5 ++ 0b00101#5 ++ 0b101#3 ++ 0b01010#5 ++ 0b0110011#7) =
      .ok (.sra 10#5 5#5 6#5) ∧
    decode (0b0000000#7 ++ 0b00110#5 ++ 0b00101#5 ++ 0b110#3 ++ 0b01010#5 ++ 0b0110011#7) =
      .ok (.or 10#5 5#5 6#5) ∧
    decode (0b0000000#7 ++ 0b00110#5 ++ 0b00101#5 ++ 0b111#3 ++ 0b01010#5 ++ 0b0110011#7) =
      .ok (.and 10#5 5#5 6#5) := by decide
theorem test_decode_upper_immediates :
    decode (0b00010010001101000101#20 ++ 0b01010#5 ++ 0b0110111#7) =
      .ok (.lui 10#5 0x12345000#32) ∧
    decode (0b11111111111111111111#20 ++ 0b01010#5 ++ 0b0010111#7) =
      .ok (.auipc 10#5 0xFFFFF000#32) := by decide
theorem test_decode_jumps :
    decode (0b1#1 ++ 0b1110000000#10 ++ 0b1#1 ++ 0b11111111#8 ++ 0b00001#5 ++ 0b1101111#7) =
      .ok (.jal 1#5 0xFFFFFF00#32) ∧
    decode (0b0#1 ++ 0b0000000000#10 ++ 0b1#1 ++ 0b10000000#8 ++ 0b00001#5 ++ 0b1101111#7) =
      .ok (.jal 1#5 0x00080800#32) ∧
    decode (0b000000001000#12 ++ 0b00110#5 ++ 0b000#3 ++ 0b00101#5 ++ 0b1100111#7) =
      .ok (.jalr 5#5 6#5 8#32) := by decide
theorem test_decode_branches :
    decode (0b0#1 ++ 0b000000#6 ++ 0b00110#5 ++ 0b00101#5 ++ 0b000#3 ++ 0b0100#4 ++ 0b0#1 ++ 0b1100011#7) =
      .ok (.beq 5#5 6#5 0x00000008#32) ∧
    decode (0b1#1 ++ 0b111111#6 ++ 0b00110#5 ++ 0b00101#5 ++ 0b001#3 ++ 0b1100#4 ++ 0b1#1 ++ 0b1100011#7) =
      .ok (.bne 5#5 6#5 0xFFFFFFF8#32) ∧
    decode (0b0#1 ++ 0b000000#6 ++ 0b00110#5 ++ 0b00101#5 ++ 0b100#3 ++ 0b0000#4 ++ 0b1#1 ++ 0b1100011#7) =
      .ok (.blt 5#5 6#5 0x00000800#32) ∧
    decode (0b1#1 ++ 0b000000#6 ++ 0b00110#5 ++ 0b00101#5 ++ 0b101#3 ++ 0b0000#4 ++ 0b0#1 ++ 0b1100011#7) =
      .ok (.bge 5#5 6#5 0xFFFFF000#32) ∧
    decode (0b0#1 ++ 0b111111#6 ++ 0b00110#5 ++ 0b00101#5 ++ 0b110#3 ++ 0b1111#4 ++ 0b1#1 ++ 0b1100011#7) =
      .ok (.bltu 5#5 6#5 0x00000FFE#32) ∧
    decode (0b0#1 ++ 0b000000#6 ++ 0b00110#5 ++ 0b00101#5 ++ 0b111#3 ++ 0b1000#4 ++ 0b0#1 ++ 0b1100011#7) =
      .ok (.bgeu 5#5 6#5 0x00000010#32) := by decide
theorem test_decode_loads :
    decode (0b111111111111#12 ++ 0b00101#5 ++ 0b000#3 ++ 0b01010#5 ++ 0b0000011#7) =
      .ok (.lb 10#5 5#5 0xFFFFFFFF#32) ∧
    decode (0b000000000010#12 ++ 0b00101#5 ++ 0b001#3 ++ 0b01010#5 ++ 0b0000011#7) =
      .ok (.lh 10#5 5#5 0x00000002#32) ∧
    decode (0b011111111111#12 ++ 0b00101#5 ++ 0b010#3 ++ 0b01010#5 ++ 0b0000011#7) =
      .ok (.lw 10#5 5#5 0x000007FF#32) ∧
    decode (0b100000000000#12 ++ 0b00101#5 ++ 0b100#3 ++ 0b01010#5 ++ 0b0000011#7) =
      .ok (.lbu 10#5 5#5 0xFFFFF800#32) ∧
    decode (0b000000000001#12 ++ 0b00101#5 ++ 0b101#3 ++ 0b01010#5 ++ 0b0000011#7) =
      .ok (.lhu 10#5 5#5 0x00000001#32) := by decide
theorem test_decode_stores :
    decode (0b1111111#7 ++ 0b00110#5 ++ 0b00101#5 ++ 0b000#3 ++ 0b11111#5 ++ 0b0100011#7) =
      .ok (.sb 5#5 6#5 0xFFFFFFFF#32) ∧
    decode (0b0000001#7 ++ 0b00110#5 ++ 0b00101#5 ++ 0b001#3 ++ 0b00001#5 ++ 0b0100011#7) =
      .ok (.sh 5#5 6#5 0x00000021#32) ∧
    decode (0b0111111#7 ++ 0b00110#5 ++ 0b00101#5 ++ 0b010#3 ++ 0b00000#5 ++ 0b0100011#7) =
      .ok (.sw 5#5 6#5 0x000007E0#32) := by decide
theorem test_decode_system :
    decode (0b000011111111#12 ++ 0b00000#5 ++ 0b000#3 ++ 0b00000#5 ++ 0b0001111#7) =
      .ok (.fence 0x0FF#12 0#5 0#5) ∧
    decode (0b100000110011#12 ++ 0b00000#5 ++ 0b000#3 ++ 0b00101#5 ++ 0b0001111#7) =
      .ok (.fence 0x833#12 0#5 5#5) ∧
    decode (0b000000000000#12 ++ 0b00000#5 ++ 0b000#3 ++ 0b00000#5 ++ 0b1110011#7) =
      .ok (.ecall) ∧
    decode (0b000000000001#12 ++ 0b00000#5 ++ 0b000#3 ++ 0b00000#5 ++ 0b1110011#7) =
      .ok (.ebreak) := by decide

/-- The illegal words of 95_test_vectors.md, sections 2.1 to 2.7. -/
theorem test_decode_rejects :
    ([0x40059513#32, 0x42055513#32, 0x02059513#32, 0x02B50533#32, 0x40B51533#32, 0x40B52533#32,
      0x000590E7#32, 0x0000A063#32, 0x0005B503#32, 0x0005E503#32, 0x0005F503#32, 0x00C5B023#32] ++
     [0x0000100F#32, 0xC0002573#32, 0x000000F3#32, 0x00008073#32, 0x00200073#32, 0x30200073#32,
      0x10500073#32, 0xFFFFFFFF#32, 0x00000001#32, 0x0000000B#32, 0x0000002F#32]).all rejected =
    true := by decide

/-- The bytes of `addi a0, x0, 42` as 95_test_vectors.md stores them: `13 05 A0 02`. -/
theorem test_decode_bytes :
    decodeBytes [0x13#8, 0x05#8, 0xA0#8, 0x02#8, 0xFF#8] = .ok (.addi 10#5 0#5 42#32, [0xFF#8]) ∧
    decodeBytes [0x13#8, 0x05#8, 0xA0#8] = .error .truncated ∧
    encodeBytes (.addi 10#5 0#5 42#32) = [0x13#8, 0x05#8, 0xA0#8, 0x02#8] := by decide

theorem test_decode_table_word :
    decodeTableWord 32 0x02A00513 = some (.addi 10#5 0#5 42#32) ∧
    decodeTableWord 32 0xFFFFFFFF = none := by decide

/-! ## One step each: 95_test_vectors.md, sections 1.1 and 2.1 to 2.4 -/

theorem test_addi_wraps :
    gives (placed 0x00158513 [(11#5, 0x7FFFFFFF#32)]) 10#5 0x80000000#32 0x104#32 = true := by decide
theorem test_addi_to_x0 :
    gives (placed 0x00558013 [(11#5, 0x00000001#32)]) 0#5 0x00000000#32 0x104#32 = true := by decide
theorem test_slti_signed :
    gives (placed 0xFFF5A513 [(11#5, 0x80000000#32)]) 10#5 0x00000001#32 0x104#32 = true := by decide
theorem test_slti_equal :
    gives (placed 0xFFF5A513 [(11#5, 0xFFFFFFFF#32), (10#5, 0x00000007#32)]) 10#5 0x00000000#32 0x104#32 = true := by decide
theorem test_sltiu_sign_extended :
    gives (placed 0xFFF5B513 [(11#5, 0xFFFFFFFE#32)]) 10#5 0x00000001#32 0x104#32 = true := by decide
theorem test_sltiu_equal :
    gives (placed 0xFFF5B513 [(11#5, 0xFFFFFFFF#32), (10#5, 0x00000007#32)]) 10#5 0x00000000#32 0x104#32 = true := by decide
theorem test_xori_not :
    gives (placed 0xFFF5C513 [(11#5, 0x0F0F0F0F#32)]) 10#5 0xF0F0F0F0#32 0x104#32 = true := by decide
theorem test_ori_sign_extended :
    gives (placed 0xFF05E513 [(11#5, 0x00000005#32)]) 10#5 0xFFFFFFF5#32 0x104#32 = true := by decide
theorem test_andi_mask :
    gives (placed 0x7FF5F513 [(11#5, 0xFFFFFFFF#32)]) 10#5 0x000007FF#32 0x104#32 = true := by decide
theorem test_slli_31 :
    gives (placed 0x01F59513 [(11#5, 0x00000003#32)]) 10#5 0x80000000#32 0x104#32 = true := by decide
theorem test_slli_0 :
    gives (placed 0x00059513 [(11#5, 0x89ABCDEF#32)]) 10#5 0x89ABCDEF#32 0x104#32 = true := by decide
theorem test_srli_31 :
    gives (placed 0x01F5D513 [(11#5, 0x80000000#32)]) 10#5 0x00000001#32 0x104#32 = true := by decide
theorem test_srai_31 :
    gives (placed 0x41F5D513 [(11#5, 0x80000000#32)]) 10#5 0xFFFFFFFF#32 0x104#32 = true := by decide
theorem test_srai_positive :
    gives (placed 0x4045D513 [(11#5, 0x7FFFFFF0#32)]) 10#5 0x07FFFFFF#32 0x104#32 = true := by decide
theorem test_add_wraps :
    gives (placed 0x00C58533 [(11#5, 0xFFFFFFFF#32), (12#5, 0x00000001#32), (10#5, 0x00000007#32)]) 10#5 0x00000000#32 0x104#32 = true := by decide
theorem test_add_source_is_destination :
    gives (placed 0x00B585B3 [(11#5, 0x40000000#32)]) 11#5 0x80000000#32 0x104#32 = true := by decide
theorem test_sub_below_zero :
    gives (placed 0x40C58533 [(11#5, 0x00000000#32), (12#5, 0x00000001#32)]) 10#5 0xFFFFFFFF#32 0x104#32 = true := by decide
theorem test_sub_most_negative :
    gives (placed 0x40C58533 [(11#5, 0x80000000#32), (12#5, 0x00000001#32)]) 10#5 0x7FFFFFFF#32 0x104#32 = true := by decide
theorem test_sll_masks_amount :
    gives (placed 0x00C59533 [(11#5, 0x00000001#32), (12#5, 0x00000021#32)]) 10#5 0x00000002#32 0x104#32 = true := by decide
theorem test_sll_31 :
    gives (placed 0x00C59533 [(11#5, 0x00000001#32), (12#5, 0x0000001F#32)]) 10#5 0x80000000#32 0x104#32 = true := by decide
theorem test_srl_masks_amount :
    gives (placed 0x00C5D533 [(11#5, 0x80000000#32), (12#5, 0xFFFFFFFF#32)]) 10#5 0x00000001#32 0x104#32 = true := by decide
theorem test_sra_4 :
    gives (placed 0x40C5D533 [(11#5, 0x80000000#32), (12#5, 0x00000004#32)]) 10#5 0xF8000000#32 0x104#32 = true := by decide
theorem test_sra_by_32_is_by_0 :
    gives (placed 0x40C5D533 [(11#5, 0x80000000#32), (12#5, 0x00000020#32)]) 10#5 0x80000000#32 0x104#32 = true := by decide
theorem test_slt_signed :
    gives (placed 0x00C5A533 [(11#5, 0xFFFFFFFF#32), (12#5, 0x00000001#32)]) 10#5 0x00000001#32 0x104#32 = true := by decide
theorem test_sltu_unsigned :
    gives (placed 0x00C5B533 [(11#5, 0xFFFFFFFF#32), (12#5, 0x00000001#32), (10#5, 0x00000007#32)]) 10#5 0x00000000#32 0x104#32 = true := by decide
theorem test_sltu_snez :
    gives (placed 0x00C03533 [(12#5, 0x00000007#32)]) 10#5 0x00000001#32 0x104#32 = true := by decide
theorem test_xor_bits :
    gives (placed 0x00C5C533 [(11#5, 0xFF00FF00#32), (12#5, 0x0FF00FF0#32)]) 10#5 0xF0F0F0F0#32 0x104#32 = true := by decide
theorem test_or_bits :
    gives (placed 0x00C5E533 [(11#5, 0xFF00FF00#32), (12#5, 0x0FF00FF0#32)]) 10#5 0xFFF0FFF0#32 0x104#32 = true := by decide
theorem test_and_bits :
    gives (placed 0x00C5F533 [(11#5, 0xFF00FF00#32), (12#5, 0x0FF00FF0#32)]) 10#5 0x0F000F00#32 0x104#32 = true := by decide
theorem test_lui_top :
    gives (placed 0xFFFFF537 []) 10#5 0xFFFFF000#32 0x104#32 = true := by decide
theorem test_lui_to_x0 :
    gives (placed 0x12345037 []) 0#5 0x00000000#32 0x104#32 = true := by decide
theorem test_auipc_adds :
    gives (placed 0x80000517 []) 10#5 0x80000100#32 0x104#32 = true := by decide
theorem test_auipc_wraps :
    gives (placed 0xFFFFF517 []) 10#5 0xFFFFF100#32 0x104#32 = true := by decide
theorem test_jal_links :
    gives (placed 0xF01FF0EF []) 1#5 0x00000104#32 0x0#32 = true := by decide
theorem test_jal_misaligned :
    traps (placed 0x006000EF []) .misalignedInstruction = true := by decide
theorem test_jalr_same_register :
    gives (placed 0x000080E7 [(1#5, 0x00000200#32)]) 1#5 0x00000104#32 0x200#32 = true := by decide
theorem test_jalr_misaligned_after_clearing :
    traps (placed 0x00058567 [(11#5, 0x00000203#32)]) .misalignedInstruction = true := by decide
theorem test_beq_taken :
    gives (placed 0xF0C580E3 [(11#5, 0x00000005#32), (12#5, 0x00000005#32)]) 10#5 0x00000000#32 0x0#32 = true := by decide
theorem test_beq_not_taken :
    gives (placed 0xF0C580E3 [(11#5, 0x00000005#32), (12#5, 0x00000006#32)]) 10#5 0x00000000#32 0x104#32 = true := by decide
theorem test_bne_taken :
    gives (placed 0x00C59863 [(11#5, 0x00000005#32), (12#5, 0x00000006#32)]) 10#5 0x00000000#32 0x110#32 = true := by decide
theorem test_bne_not_taken_misaligned_offset :
    gives (placed 0x00001363 []) 10#5 0x00000000#32 0x104#32 = true := by decide
theorem test_blt_signed :
    gives (placed 0x00C5C863 [(11#5, 0x80000000#32), (12#5, 0x7FFFFFFF#32)]) 10#5 0x00000000#32 0x110#32 = true := by decide
theorem test_bltu_unsigned :
    gives (placed 0x00C5E863 [(11#5, 0x80000000#32), (12#5, 0x7FFFFFFF#32)]) 10#5 0x00000000#32 0x104#32 = true := by decide
theorem test_bge_equal :
    gives (placed 0x00C5D863 [(11#5, 0xFFFFFFFF#32), (12#5, 0xFFFFFFFF#32)]) 10#5 0x00000000#32 0x110#32 = true := by decide
theorem test_bge_less :
    gives (placed 0x00C5D863 [(11#5, 0xFFFFFFFE#32), (12#5, 0xFFFFFFFF#32)]) 10#5 0x00000000#32 0x104#32 = true := by decide
theorem test_bgeu_less :
    gives (placed 0x00C5F863 [(11#5, 0x00000000#32), (12#5, 0xFFFFFFFF#32)]) 10#5 0x00000000#32 0x104#32 = true := by decide
theorem test_bgeu_greater :
    gives (placed 0x00C5F863 [(11#5, 0xFFFFFFFF#32), (12#5, 0x00000000#32)]) 10#5 0x00000000#32 0x110#32 = true := by decide

theorem test_branch_misaligned :
    traps (placed 0x00000363 []) .misalignedInstruction = true := by decide

/-! ## Loads and stores: section 2.5 -/

theorem test_lw_last_word :
    gives (placed 0x0005A503 [(11#5, 0x00000FFC#32)]) 10#5 0x84832211#32 0x104#32 = true := by decide
theorem test_lw_sum_does_not_wrap :
    traps (placed 0xFFC02503 []) .memoryOutOfRange = true := by decide
theorem test_lh_sign :
    gives (placed 0x00059503 [(11#5, 0x00000FFE#32)]) 10#5 0xFFFF8483#32 0x104#32 = true := by decide
theorem test_lh_past_the_end :
    traps (placed 0x00159503 [(11#5, 0x00000FFE#32)]) .memoryOutOfRange = true := by decide
theorem test_lhu_zero :
    gives (placed 0x0005D503 [(11#5, 0x00000FFE#32)]) 10#5 0x00008483#32 0x104#32 = true := by decide
theorem test_lb_address_wraps :
    gives (placed 0x00158503 [(11#5, 0xFFFFFFFF#32)]) 10#5 0xFFFFFF9A#32 0x104#32 = true := by decide
theorem test_lb_to_x0_traps :
    traps (placed 0x00058003 [(11#5, 0x00001000#32)]) .memoryOutOfRange = true := by decide
theorem test_lbu_zero :
    gives (placed 0xFFF5C503 [(11#5, 0x00001000#32)]) 10#5 0x00000084#32 0x104#32 = true := by decide
theorem test_sb_low_byte :
    leaves (placed 0x00C581A3 [(11#5, 0x00000FFC#32), (12#5, 0x55667788#32)]) [(0xFFE, 0x83#8), (0xFFF, 0x88#8)] = true := by decide
theorem test_sh_low_half :
    leaves (placed 0x00C59123 [(11#5, 0x00000FFC#32), (12#5, 0x55667788#32)]) [(0xFFD, 0x22#8), (0xFFE, 0x88#8), (0xFFF, 0x77#8)] = true := by decide
theorem test_sh_no_partial_write :
    traps (placed 0xFEC59FA3 [(11#5, 0x00001000#32), (12#5, 0x0000ABCD#32)]) .memoryOutOfRange = true := by decide
theorem test_sw_little_endian :
    leaves (placed 0x00B5A023 [(11#5, 0x00000300#32)]) [(0x300, 0x00#8), (0x301, 0x03#8), (0x302, 0x00#8), (0x303, 0x00#8)] = true := by decide
theorem test_sw_no_partial_write :
    traps (placed 0x00C5A023 [(11#5, 0x00000FFE#32), (12#5, 0x55667788#32)]) .memoryOutOfRange = true := by decide

/-! ## System, fence, fetch and decode: sections 2.6 and 2.7 -/

theorem test_ecall_exit :
    nextWith (step (placed 0x00000073 [(17#5, 93#32), (10#5, 0xFFFFFFFF#32)])) (fun t =>
      decide (t.status = .exitedNormally (-1)) && t.pc == 0x104#32) = true := by decide
theorem test_ecall_compares_the_whole_number :
    traps (placed 0x00000073 [(17#5, 0x8000005D#32)]) .unsupportedSyscall = true := by decide
theorem test_ebreak : traps (placed 0x00100073 []) .breakpoint = true := by decide

theorem test_fence_ignores_rd :
    gives (placed 0x0FF0028F [(5#5, 0x00000009#32)]) 5#5 0x00000009#32 0x104#32 = true := by decide
theorem test_fence_tso :
    gives (placed 0x8330000F []) 10#5 0x00000000#32 0x104#32 = true := by decide
/-! ## Witnesses: for every statement with hypotheses, a state and operands that meet them -/

/-- Opcode, funct3 and funct7 of a word. -/
def parts (w : Word) : BitVec 7 × BitVec 3 × BitVec 7 :=
  (w.extractLsb' 0 7, w.extractLsb' 12 3, w.extractLsb' 25 7)

theorem witness_DecodeOfEncodeIsTheInstruction :
    Instr.wf (.andi 31#5 31#5 (-2048#32)) = true ∧ Instr.wf (.bgeu 31#5 0#5 4094#32) = true ∧
    Instr.wf (.jal 31#5 (-1048576#32)) = true ∧ Instr.wf (.auipc 31#5 0xFFFFF000#32) = true := by decide
theorem witness_EncodeOfDecodeIsTheWord :
    decode 0x4042D513#32 = .ok (.srai 10#5 5#5 4#5) ∧ decode 0x8330000F#32 = .ok (.fence 0x833#12 0#5 0#5) := by
  decide
theorem witness_DecoderFollowsTheOpcodeTable :
    decode 0x00100073#32 = .ok .ebreak ∧
    0xFFFFFF93#32 &&& rowMask (.addi 0#5 0#5 0#32) ≠ rowMatch (.addi 0#5 0#5 0#32) ∧
    0x00000F93#32 &&& rowMask (.addi 0#5 0#5 0#32) = rowMatch (.addi 0#5 0#5 0#32) := by decide
theorem witness_UnrecognizedOpcodesAreRejected :
    (parts 0xFFFFFFFF#32).1 = 0b1111111#7 ∧ (parts 0x0000002F#32).1 = 0b0101111#7 ∧
    (0x00000001#32 : Word).extractLsb' 0 2 ≠ 0b11#2 := by decide
theorem witness_SystemWordsAreExactlyTwo :
    (parts 0x00000073#32).1 = 0b1110011#7 ∧ (parts 0x00100073#32).1 = 0b1110011#7 ∧
    (parts 0x30200073#32).1 = 0b1110011#7 ∧ (parts 0x0000100F#32).1 = 0b0001111#7 ∧
    (parts 0x0000100F#32).2.1 ≠ 0b000#3 := by decide
theorem witness_UndefinedFunctCombinationsAreRejected :
    parts 0x02B50533#32 = (0b0110011#7, 0b000#3, 0b0000001#7) ∧
    parts 0x40B51533#32 = (0b0110011#7, 0b001#3, 0b0100000#7) ∧
    (parts 0x0000A063#32).1 = 0b1100011#7 ∧ (parts 0x0000A063#32).2.1 = 0b010#3 ∧
    (parts 0x0005F503#32).1 = 0b0000011#7 ∧ (parts 0x0005F503#32).2.1 = 0b111#3 ∧
    (parts 0x00C5B023#32).1 = 0b0100011#7 ∧ (parts 0x00C5B023#32).2.1 = 0b011#3 ∧
    (parts 0x000590E7#32).1 = 0b1100111#7 ∧ (parts 0x000590E7#32).2.1 = 0b001#3 := by decide
theorem witness_ImmediateAddAndCompare :
    ([0x00158513#32, 0xFFF5A513#32, 0xFFF5B513#32].map fun w => ((parts w).1, (parts w).2.1)) =
      [(0b0010011#7, 0b000#3), (0b0010011#7, 0b010#3), (0b0010011#7, 0b011#3)] := by decide
theorem witness_ImmediateLogic :
    ([0xFFF5C513#32, 0xFF05E513#32, 0x7FF5F513#32].map fun w => ((parts w).1, (parts w).2.1)) =
      [(0b0010011#7, 0b100#3), (0b0010011#7, 0b110#3), (0b0010011#7, 0b111#3)] := by decide
theorem witness_ImmediateShifts :
    [0x01F59513#32, 0x01F5D513#32, 0x41F5D513#32, 0x40059513#32, 0x42055513#32].map parts =
      [(0b0010011#7, 0b001#3, 0b0000000#7), (0b0010011#7, 0b101#3, 0b0000000#7),
        (0b0010011#7, 0b101#3, 0b0100000#7), (0b0010011#7, 0b001#3, 0b0100000#7),
        (0b0010011#7, 0b101#3, 0b0100001#7)] := by decide
theorem witness_RegisterAddAndSubtract :
    [0x00C58533#32, 0x40C58533#32].map parts =
      [(0b0110011#7, 0b000#3, 0b0000000#7), (0b0110011#7, 0b000#3, 0b0100000#7)] := by decide
theorem witness_RegisterCompare :
    [0x00C5A533#32, 0x00C5B533#32].map parts =
      [(0b0110011#7, 0b010#3, 0b0000000#7), (0b0110011#7, 0b011#3, 0b0000000#7)] := by decide
theorem witness_RegisterLogic :
    [0x00C5C533#32, 0x00C5E533#32, 0x00C5F533#32].map parts =
      [(0b0110011#7, 0b100#3, 0b0000000#7), (0b0110011#7, 0b110#3, 0b0000000#7),
        (0b0110011#7, 0b111#3, 0b0000000#7)] := by decide
theorem witness_RegisterShifts :
    [0x00C59533#32, 0x00C5D533#32, 0x40C5D533#32].map parts =
      [(0b0110011#7, 0b001#3, 0b0000000#7), (0b0110011#7, 0b101#3, 0b0000000#7),
        (0b0110011#7, 0b101#3, 0b0100000#7)] := by decide
theorem witness_UpperImmediates :
    (parts 0xFFFFF537#32).1 = 0b0110111#7 ∧ (parts 0xFFFFF517#32).1 = 0b0010111#7 := by decide
/-- From the bench PC 0x100: an aligned target at 0, a misaligned one at 0x106. -/
theorem witness_JumpAndLink :
    (parts 0xF01FF0EF#32).1 = 0b1101111#7 ∧
    ((bench []).pc + 0xFFFFFF00#32).getLsbD 1 = false ∧ ((bench []).pc + 6#32).getLsbD 1 = true := by
  decide
/-- `x[a1] = 0x203`: with offset 1 the target is 0x204, with offset 0 it is 0x202. -/
theorem witness_JumpAndLinkRegister :
    parts 0x00158567#32 = (0b1100111#7, 0b000#3, 0b0000000#7) ∧
    (parts 0x000590E7#32).1 = 0b1100111#7 ∧ (parts 0x000590E7#32).2.1 ≠ 0b000#3 ∧
    (0x204#32 : Word).toNat = ((bench [(11#5, 0x203#32)]).readReg 11#5 + 1#32).toNat -
      ((bench [(11#5, 0x203#32)]).readReg 11#5 + 1#32).toNat % 2 ∧
    (0x204#32 : Word).getLsbD 1 = false ∧
    (0x202#32 : Word).toNat = ((bench [(11#5, 0x203#32)]).readReg 11#5 + 0#32).toNat -
      ((bench [(11#5, 0x203#32)]).readReg 11#5 + 0#32).toNat % 2 ∧
    (0x202#32 : Word).getLsbD 1 = true := by decide

/-- `a1` = 0x80000000, `a2` = 0x7FFFFFFF, the extremes of the signed order. -/
def ordered : State := bench [(11#5, 0x80000000#32), (12#5, 0x7FFFFFFF#32)]

/-- The condition holds of one order of `a1` and `a2` and not of another pair. -/
abbrev BothWays (cond : Word → Word → Prop) (a b c d : RegIdx) : Prop :=
  cond (ordered.readReg a) (ordered.readReg b) ∧ ¬ cond (ordered.readReg c) (ordered.readReg d)

theorem witness_Branches_encoding :
    ([0xF0C580E3#32, 0x00C59863#32, 0x00C5C863#32, 0x00C5D863#32, 0x00C5E863#32, 0x00C5F863#32].map
      fun w => ((parts w).1, (parts w).2.1)) =
      [(0b1100011#7, 0b000#3), (0b1100011#7, 0b001#3), (0b1100011#7, 0b100#3),
        (0b1100011#7, 0b101#3), (0b1100011#7, 0b110#3), (0b1100011#7, 0b111#3)] := by decide
theorem witness_Branches_conditions :
    BothWays (fun a b => a = b) 11#5 11#5 11#5 12#5 ∧
    BothWays (fun a b => a ≠ b) 11#5 12#5 12#5 12#5 ∧
    BothWays (fun a b => a.toInt < b.toInt) 11#5 12#5 12#5 11#5 ∧
    BothWays (fun a b => b.toInt ≤ a.toInt) 11#5 11#5 11#5 12#5 ∧
    BothWays (fun a b => a.toNat < b.toNat) 12#5 11#5 11#5 11#5 ∧
    BothWays (fun a b => b.toNat ≤ a.toNat) 11#5 12#5 12#5 11#5 ∧
    (ordered.pc + 16#32).getLsbD 1 = false ∧ (ordered.pc + 6#32).getLsbD 1 = true := by decide

/-- The last address in range and the first out of range, of each width. -/
theorem witness_LoadsExtendWhatMemoryHolds :
    ([0xFFF58503#32, 0x00059503#32, 0x0005A503#32, 0xFFF5C503#32, 0x0005D503#32].map fun w =>
      ((parts w).1, (parts w).2.1)) =
      [(0b0000011#7, 0b000#3), (0b0000011#7, 0b001#3), (0b0000011#7, 0b010#3),
        (0b0000011#7, 0b100#3), (0b0000011#7, 0b101#3)] ∧
    ([1, 2, 4].all fun n =>
      decide (((bench []).readReg 0#5 + BitVec.ofNat 32 (0x1000 - n)).toNat + n ≤ (bench []).mem.size) &&
      decide ((bench []).mem.size <
        ((bench []).readReg 0#5 + BitVec.ofNat 32 (0x1001 - n)).toNat + n)) = true := by decide
theorem witness_StoresWriteTheirBytesOnly :
    ([0x00C581A3#32, 0x00C59123#32, 0x00C5A023#32].map fun w => ((parts w).1, (parts w).2.1)) =
      [(0b0100011#7, 0b000#3), (0b0100011#7, 0b001#3), (0b0100011#7, 0b010#3)] ∧
    ([1, 2, 4].all fun n =>
      decide (((bench []).readReg 0#5 + BitVec.ofNat 32 (0x1000 - n)).toNat + n ≤ (bench []).mem.size) &&
      decide ((bench []).mem.size <
        ((bench []).readReg 0#5 + BitVec.ofNat 32 (0x1001 - n)).toNat + n)) = true := by decide
theorem witness_MemoryAccessIsLittleEndian :
    (∃ v : BitVec Width.word.bits, (bench []).memRead 0xFFC#32 .word = some v) ∧
    (∃ t, (bench []).memWrite 0xFFE#32 .half 0x5566#32 = some t) ∧ 3 < Width.word.bytes ∧
    (bench []).mem.size < (0xFFD#32 : Word).toNat + Width.word.bytes :=
  ⟨⟨_, rfl⟩, ⟨_, rfl⟩, by decide, by decide⟩
theorem witness_StoreThenLoadRoundTrip :
    (∃ t, (bench [(11#5, 0xFFC#32)]).memWrite 0xFFC#32 .word 0x80#32 = some t ∧
      t.readReg 11#5 + 0#32 = 0xFFC#32) ∧
    (∃ t, (bench [(11#5, 0xFFE#32)]).memWrite 0xFFE#32 .half 0x8000#32 = some t ∧
      t.readReg 11#5 + 0#32 = 0xFFE#32) ∧
    (∃ t, (bench [(11#5, 0xFFF#32)]).memWrite 0xFFF#32 .byte 0x80#32 = some t ∧
      t.readReg 11#5 + 0#32 = 0xFFF#32) :=
  ⟨⟨_, rfl, by decide⟩, ⟨_, rfl, by decide⟩, ⟨_, rfl, by decide⟩⟩
/-- A store at the last word of memory, and one over the very next instruction. -/
theorem witness_StoredWordIsTheNextFetch :
    ((bench [(11#5, 0xFFC#32)]).readReg 11#5 + 0#32).toNat + 4 ≤ (bench []).mem.size ∧
    ((bench [(11#5, 0x100#32)]).readReg 11#5 + 4#32).toNat + 4 ≤ (bench []).mem.size ∧
    (bench [(11#5, 0x100#32)]).readReg 11#5 + 4#32 = (bench []).pc + 4#32 := by decide
theorem witness_FenceOnlyAdvances :
    (parts 0x0FF0028F#32).1 = 0b0001111#7 ∧ (parts 0x0FF0028F#32).2.1 = 0b000#3 ∧
    (parts 0x0000100F#32).1 = 0b0001111#7 ∧ (parts 0x0000100F#32).2.1 ≠ 0b000#3 := by decide
theorem witness_EcallExitsOrTraps :
    ((bench [(17#5, 93#32)]).readReg 17#5).toNat = 93 ∧
    ((bench [(17#5, 0x8000005D#32)]).readReg 17#5).toNat ≠ 93 := by decide

theorem runs_of {s : State} {i : Instr} (hs : s.status = .running)
    (hr : s.pc.toNat + 4 ≤ s.mem.size) (hd : decode (wordAt s.mem s.pc.toNat) = .ok i) :
    Runs s i := ⟨hs, _, ⟨hr, rfl⟩, hd⟩

theorem witness_StepRunsTheDecodedInstruction :
    Runs (placed 0x00158513 []) (.addi 10#5 11#5 1#32) ∧
    Runs (State.withFetchWord { bench [] with pc := 0xFFC#32 } 32 0x00100513) (.addi 10#5 0#5 1#32) :=
  ⟨runs_of (by decide) (by decide) (by decide),
    runs_of (by decide) (by decide) (by decide)⟩
/-- The first PC out of range; a zero word; a word that does not decode. -/
theorem witness_FetchSentinelAndDecodeEndTheRun :
    ((bench []).status = .running ∧ (bench []).mem.size < (0xFFD#32 : Word).toNat + 4) ∧
    Fetches (placed 0 []) 0#32 ∧ Fetches (placed 0xFFFFFFFF []) 0xFFFFFFFF#32 ∧
    Rejected 0xFFFFFFFF#32 :=
  ⟨by decide, ⟨by decide, by decide⟩, ⟨by decide, by decide⟩, rejected_of (by decide)⟩
theorem witness_StepsExactlyFromRunning :
    (bench []).status = .running ∧ State.status { bench [] with status := .terminated } ≠ .running := by
  decide

/-- The step from this state answers a next state of this status. -/
def EndsIn (s : State) (st : RunStatus) : Prop := ∃ u, step s = .next u ∧ u.status = st

theorem endsIn_of {s : State} {st : RunStatus}
    (h : nextWith (step s) (fun t => decide (t.status = st)) = true) : EndsIn s st := by
  obtain ⟨t, ht, hp⟩ := exists_of_nextWith h
  exact ⟨t, ht, of_decide_eq_true hp⟩

theorem witness_TrapsArePrecise : EndsIn (placed 0x006000EF []) (.trapped .misalignedInstruction) :=
  endsIn_of (by decide)
theorem witness_TrapKindsHaveExactlyTheirCauses :
    EndsIn { bench [] with pc := 0xFFD#32 } (.trapped .fetchOutOfRange) ∧
    EndsIn (placed 0x0000000B []) (.trapped .illegalInstruction) ∧
    EndsIn (placed 0x00000363 []) (.trapped .misalignedInstruction) ∧
    EndsIn (placed 0x00159503 [(11#5, 0xFFE#32)]) (.trapped .memoryOutOfRange) ∧
    EndsIn (placed 0x00000073 []) (.trapped .unsupportedSyscall) ∧
    EndsIn (placed 0x00100073 []) (.trapped .breakpoint) :=
  ⟨endsIn_of (by decide), endsIn_of (by decide), endsIn_of (by decide), endsIn_of (by decide),
    endsIn_of (by decide), endsIn_of (by decide)⟩
theorem witness_NormalEndsHaveExactlyTheirCauses :
    EndsIn (placed 0x00000073 [(17#5, 93#32), (10#5, 0x80000000#32)]) (.exitedNormally (-2147483648)) ∧
    EndsIn (placed 0 []) .terminated := ⟨endsIn_of (by decide), endsIn_of (by decide)⟩
theorem witness_ZeroRegisterAndSequentialFlow :
    Runs (placed 0x00558013 []) (.addi 0#5 11#5 5#32) ∧
    transfersControl (.addi 0#5 11#5 5#32) = false ∧ EndsIn (placed 0x00558013 []) .running :=
  ⟨runs_of (by decide) (by decide) (by decide), rfl, endsIn_of (by decide)⟩
theorem witness_OnlyTheDestinationRegisterChanges :
    ∃ u, step (placed 0xFFFFF537 []) = .next u ∧ u.readReg 10#5 ≠ (placed 0xFFFFF537 []).readReg 10#5 := by
  obtain ⟨u, h, hp⟩ := exists_of_nextWith (r := step (placed 0xFFFFF537 []))
    (p := fun t => decide (t.readReg 10#5 ≠ (placed 0xFFFFF537 []).readReg 10#5)) (by decide)
  exact ⟨u, h, of_decide_eq_true hp⟩
/-- `sb a2, 3(a1)` at the last byte of memory. -/
theorem witness_OnlyStoresChangeMemory :
    ∃ s u, step s = .next u ∧ u.mem.readByte 0xFFF ≠ s.mem.readByte 0xFFF := by
  obtain ⟨u, h, hp⟩ := exists_of_nextWith
    (r := step (placed 0x00C581A3 [(11#5, 0xFFC#32), (12#5, 0x55667788#32)]))
    (p := fun t => decide (t.mem.readByte 0xFFF ≠ 0x84#8)) (by decide)
  exact ⟨placed 0x00C581A3 [(11#5, 0xFFC#32), (12#5, 0x55667788#32)], u, h, by
    have e : (placed 0x00C581A3 [(11#5, 0xFFC#32), (12#5, 0x55667788#32)]).mem.readByte 0xFFF = 0x84#8 := by
      decide
    rw [e]
    exact of_decide_eq_true hp⟩
theorem witness_StepKeepsTheInvariant :
    (placed 0x00158513 []).Inv ∧ EndsIn (placed 0x00158513 []) .running :=
  ⟨by decide, endsIn_of (by decide)⟩
theorem witness_DebugRecordOfAStep :
    State.debug { placed 0x00158513 [] with debug := true } = true ∧
    EndsIn { placed 0x00158513 [] with debug := true } .running ∧
    (placed 0x00158513 []).debug = false ∧ EndsIn (placed 0x00158513 []) .running :=
  ⟨rfl, endsIn_of (by decide), by decide, endsIn_of (by decide)⟩
theorem witness_DebugNeverChangesTheMachine : EndsIn (placed 0x00158513 []) .running :=
  endsIn_of (by decide)
/-- An image one byte too long, one that fills the memory, and the largest memory. -/
theorem witness_ConstructionPlacesTheImage :
    (1 : Nat) < [0x13#8, 0x05#8].length ∧ [0x13#8, 0x05#8].length ≤ 2 ∧ (2 : Nat) ≤ 2 ^ 32 ∧
    ([] : List Byte).length ≤ 2 ^ 32 ∧ 2 ^ 32 ≤ (2 : Nat) ^ 32 := by decide
theorem witness_TerminalRecordOfTheEnd :
    EndsIn (placed 0x00158513 []) .running ∧
    EndsIn (placed 0x00000073 [(17#5, 93#32), (10#5, 7#32)]) (.exitedNormally 7) ∧
    EndsIn (placed 0x00100073 []) (.trapped .breakpoint) ∧ EndsIn (placed 0 []) .terminated :=
  ⟨endsIn_of (by decide), endsIn_of (by decide), endsIn_of (by decide), endsIn_of (by decide)⟩
theorem witness_LoadConstantAndAddress : (bench []).status = .running := by decide
theorem witness_CallReachesItsTarget :
    (bench []).status = .running ∧ (bench []).pc.toNat % 4 = 0 ∧ (0xFFFFFFFC#32 : Word).toNat % 4 = 0 ∧
    (0x00000800#32 : Word).toNat % 4 = 0 := by decide

end Sys2Proof.Tests
end

/-! # The family of 10_state.md: the invariant of a run (R35, R36, R39), the write-back of R32 and the
terminal record of R41 -/

namespace Sys2Proof.Proofs
open Sys2Proof Sys2Proof.Machine Sys2Proof.Claims

/-! ## The invariant of a run: what each update of the state needs to keep it -/

theorem inv_pc_aligned {s : State} (h : s.Inv) : s.pc.toNat % 4 = 0 := by
  obtain ⟨-, -, hpc, -⟩ := h
  exact hpc

theorem inv_setStatus {s : State} (h : s.Inv) {st : RunStatus} (hst : codeInRange st = true) :
    (s.setStatus st).Inv := by
  obtain ⟨hmem, hslot, hpc, -⟩ := h
  exact ⟨hmem, hslot, hpc, hst⟩

theorem inv_setPc {s : State} (h : s.Inv) {target : Word} (ht : target.toNat % 4 = 0) :
    (s.setPc target).Inv := by
  obtain ⟨hmem, hslot, -, hcode⟩ := h
  exact ⟨hmem, hslot, ht, hcode⟩

theorem inv_advance {s : State} (h : s.Inv) : s.advance.Inv :=
  inv_setPc h (nextPc_aligned (inv_pc_aligned h))

theorem inv_writeReg {s : State} (h : s.Inv) (rd : RegIdx) (v : Word) : (s.writeReg rd v).Inv := by
  obtain ⟨hmem, hslot, hpc, hcode⟩ := h
  refine ⟨?_, ?_, ?_, ?_⟩
  · rwa [State.writeReg_mem]
  · rwa [writeReg_slot_zero]
  · rwa [State.writeReg_pc]
  · rwa [State.writeReg_status]

theorem inv_store {s : State} (h : s.Inv) {a n : Nat} (hr : a + n ≤ s.mem.size) (v : Word) :
    (s.setMem (s.mem.store a v n)).Inv := by
  obtain ⟨hmem, hslot, hpc, hcode⟩ := h
  exact ⟨store_wf hmem hr v, hslot, hpc, hcode⟩

theorem inv_withRecord {t : State} (h : t.Inv) (s : State) : (withRecord s t).Inv := by
  rw [withRecord_eq]
  exact h

/-- The signed reading of a Word is an exit code (R39, R240). -/
theorem codeInRange_toInt (v : Word) : codeInRange (.exitedNormally v.toInt) = true := by
  have hlow := BitVec.le_toInt v
  have hhigh := BitVec.toInt_lt (x := v)
  simp only [codeInRange, decide_eq_true_eq]
  omega

/-! ## The invariant of a run: instructions and steps -/

/-- Only a transfer needs the instruction to be well formed: its target is even, and the alignment test
has found bit 1 clear. -/
theorem exec_keeps_inv {i : Instr} {s t : State} (hwf : i.wf = true) (h : s.Inv)
    (he : exec i s = .next t) : t.Inv := by
  have hpc := inv_pc_aligned h
  have hshape := exec_shape i s
  rw [he] at hshape
  cases hshape with
  | trap k => exact inv_setStatus h rfl
  | result rd v => exact inv_advance (inv_writeReg h rd v)
  | jump rd target _ _ _ hm heven =>
    exact inv_setPc (inv_writeReg h rd s.nextPc) (aligned_of_even hm (heven hwf hpc))
  | taken target _ _ _ hm heven => exact inv_setPc h (aligned_of_even hm (heven hwf hpc))
  | sequential => exact inv_advance h
  | store w ea v _ _ _ hr => exact inv_advance (inv_store h hr v)
  | exit => exact inv_setStatus (inv_advance h) (codeInRange_toInt _)

theorem cycle_keeps_inv {s t : State} (h : s.Inv) (hc : CycleShape s t) : t.Inv := by
  cases hc with
  | fetchFails => exact inv_setStatus h rfl
  | sentinel => exact inv_setStatus h rfl
  | illegal => exact inv_setStatus h rfl
  | executes w i t _ _ hd he => exact exec_keeps_inv (decode_wf hd) h he

/-- Settles O37: every way a cycle ends keeps the invariant, and the debug record is no part of it. -/
theorem stepKeepsTheInvariant : Obligations.StepKeepsTheInvariant := by
  intro s u h hstep
  obtain ⟨-, t, hc, rfl⟩ := step_cases hstep
  exact inv_withRecord (cycle_keeps_inv h hc) s

/-! ## Register changes (R32) -/

/-- `Fetches`, the statements' own word for a fetch, says what the model's fetch answers. -/
theorem fetches_iff {s : State} {w : Word} : Fetches s w ↔ s.fetch = some w := by
  unfold Fetches
  rcases Nat.lt_or_ge s.mem.size (s.pc.toNat + 4) with h | h
  · simp [fetch_eq_none h, h]
  · rw [fetch_eq_some h, Option.some_inj, and_iff_right h]
    rfl

/-- A write to `x[rd]` can change no read but that of `x[rd]`. -/
theorem eq_of_readReg_writeReg_ne {s : State} {rd r : RegIdx} {v : Word}
    (h : (s.writeReg rd v).readReg r ≠ s.readReg r) : rd = r := by
  by_contra hne
  apply h
  rw [readReg_writeReg]
  by_cases hr : r = 0#5
  · simp [hr]
  · rw [if_neg hr, if_neg (Ne.symm hne)]

theorem destination_of_exec_changes {i : Instr} {s t : State} {r : RegIdx}
    (he : exec i s = .next t) (hr : t.readReg r ≠ s.readReg r) : destination i = some r := by
  have hshape := exec_shape i s
  rw [he] at hshape
  cases hshape with
  | result rd v hd => rw [hd, eq_of_readReg_writeReg_ne hr]
  | jump rd target hd => rw [hd, eq_of_readReg_writeReg_ne hr]
  | trap | taken | sequential | store | exit => exact absurd rfl hr

/-- Only a cycle that executes an instruction changes a register: a failed fetch, the sentinel and a
word that does not decode change the run status alone. -/
theorem runs_of_cycle_changes {s t : State} {r : RegIdx} (hrun : s.status = .running)
    (hc : CycleShape s t) (hr : t.readReg r ≠ s.readReg r) :
    ∃ i, Runs s i ∧ destination i = some r := by
  cases hc with
  | executes w i t hf _ hd he =>
    exact ⟨i, ⟨hrun, w, fetches_iff.mpr hf, hd⟩, destination_of_exec_changes he hr⟩
  | fetchFails | sentinel | illegal => exact absurd rfl hr

/-- Settles O35: the two laws of the register write, and the one instruction a step runs. -/
theorem onlyTheDestinationRegisterChanges : Obligations.OnlyTheDestinationRegisterChanges := by
  refine ⟨writeReg_zero, fun s i r v hi => ?_, fun s u r hstep hr => ?_⟩
  · rw [readReg_writeReg]
    by_cases h0 : r = 0#5
    · subst h0
      rw [if_pos rfl, if_neg (Ne.symm hi), readReg_zero]
    · rw [if_neg h0]
  · obtain ⟨hrun, t, hc, rfl⟩ := step_cases hstep
    rw [withRecord_readReg] at hr
    exact runs_of_cycle_changes hrun hc hr

/-! ## The terminal record (R41) -/

/-- The PC a step from `s` leaves when it ends the run with this status: past the ECALL for a normal
exit (D6), else the address of the instruction or zero word that ended the run. -/
def endPc (s : State) : RunStatus → Word
  | .exitedNormally _ => s.pc + 4#32
  | _ => s.pc

theorem exec_endPc {i : Instr} {s t : State} (hrun : s.status = .running) (he : exec i s = .next t)
    (hend : t.status ≠ .running) : t.pc = endPc s t.status := by
  have hshape := exec_shape i s
  rw [he] at hshape
  cases hshape with
  | trap | exit => rfl
  | result | jump | taken | sequential | store => simp [hrun] at hend

theorem step_endPc {s u : State} (hstep : step s = .next u) (hend : u.status ≠ .running) :
    u.pc = endPc s u.status := by
  obtain ⟨hrun, t, hc, rfl⟩ := step_cases hstep
  rw [withRecord_status] at hend ⊢
  rw [withRecord_pc]
  cases hc with
  | fetchFails | sentinel | illegal => rfl
  | executes w i t _ _ _ he => exact exec_endPc hrun he hend

theorem registerFile_get? (s : State) (r : RegIdx) :
    s.registerFile[r.toNat]? = some (s.readReg r) := by
  rw [Vector.getElem?_eq_getElem r.isLt, registerFile_get]

section
variable {u : State}

theorem terminalRecord_of_running (h : u.status = .running) : terminalRecord u = none := by
  simp [terminalRecord, h]

theorem terminalRecord_of_exited {code : Int} (h : u.status = .exitedNormally code) :
    terminalRecord u = some ⟨some code, .exitedNormally, u.registerFile, u.pc⟩ := by
  simp [terminalRecord, h]

theorem terminalRecord_of_trapped {k : TrapKind} (h : u.status = .trapped k) :
    terminalRecord u = some ⟨none, .trapped k, u.registerFile, u.pc⟩ := by
  simp [terminalRecord, h]

theorem terminalRecord_of_terminated (h : u.status = .terminated) :
    terminalRecord u = some ⟨none, .terminated, u.registerFile, u.pc⟩ := by
  simp [terminalRecord, h]

end

/-- Settles O43: the record of each final status, with the PC that the step of this end leaves. -/
theorem terminalRecordOfTheEnd : Obligations.TerminalRecordOfTheEnd := by
  intro s u hstep
  have hpc := step_endPc hstep
  have hregs := registerFile_get? u
  cases hu : u.status with
  | running => exact ⟨fun _ => terminalRecord_of_running hu, fun h => absurd rfl h⟩
  | exitedNormally code =>
    rw [hu] at hpc
    refine ⟨nofun, fun h => ⟨_, terminalRecord_of_exited hu, hregs, rfl, ?_, nofun, nofun⟩⟩
    rintro _ ⟨⟩
    exact ⟨rfl, rfl, hpc h⟩
  | trapped k =>
    rw [hu] at hpc
    refine ⟨nofun, fun h => ⟨_, terminalRecord_of_trapped hu, hregs, rfl, nofun, ?_, nofun⟩⟩
    rintro _ ⟨⟩
    exact ⟨rfl, rfl, hpc h⟩
  | terminated =>
    rw [hu] at hpc
    exact ⟨nofun, fun h => ⟨_, terminalRecord_of_terminated hu, hregs, rfl, nofun, nofun,
      fun _ => ⟨rfl, rfl, hpc h⟩⟩⟩

end Sys2Proof.Proofs

/-! # The family of 20_memory.md: the range test (R61), little-endian access (R62, R63), the round trip
of R76, the fetch of stored words (R73) and what a step does to memory (R70) -/

namespace Sys2Proof.Proofs
open Sys2Proof Sys2Proof.Machine Sys2Proof.Claims

/-! ## The range test (R61) -/

theorem width_bytes_pos (w : Width) : 0 < w.bytes := by cases w <;> decide

/-- An access is in range exactly when its last byte is, and so exactly when every byte is. -/
theorem inRange_iff_bytes {a n size : Nat} (hn : 0 < n) :
    a + n ≤ size ↔ ∀ k, k < n → a + k < size := by
  refine ⟨fun h k hk => by omega, fun h => ?_⟩
  have hlast := h (n - 1) (by omega)
  omega

section
variable {s : State} {addr v : Word} {w : Width}

theorem memRead_eq_none_iff : s.memRead addr w = none ↔ s.mem.size < addr.toNat + w.bytes := by
  simp [State.memRead, inRange_iff]

theorem memWrite_eq_none_iff : s.memWrite addr w v = none ↔ s.mem.size < addr.toNat + w.bytes := by
  simp [State.memWrite, inRange_iff]

theorem fetch_eq_none_iff : s.fetch = none ↔ s.mem.size < s.pc.toNat + 4 := by
  simp [State.fetch, inRange_iff]

/-- `MemRead` answers a value exactly in range, and it is the one memory holds (R62). -/
theorem memRead_eq_some_iff {x : BitVec w.bits} : s.memRead addr w = some x ↔
    addr.toNat + w.bytes ≤ s.mem.size ∧ s.mem.read addr.toNat w = x := by
  simp [State.memRead, inRange_iff]

/-- `MemWrite` answers a state exactly in range, and it is the one with the bytes stored (R63). -/
theorem memWrite_eq_some_iff {t : State} : s.memWrite addr w v = some t ↔
    addr.toNat + w.bytes ≤ s.mem.size ∧ s.setMem (s.mem.store addr.toNat v w.bytes) = t := by
  simp [State.memWrite, inRange_iff]

end

/-- Settles O21: each access fails exactly out of range, and a range is its bytes. -/
theorem rangeTestDoesNotWrap : Obligations.RangeTestDoesNotWrap := by
  intro s addr v w
  refine ⟨memRead_eq_none_iff, memWrite_eq_none_iff, fetch_eq_none_iff, ?_⟩
  rw [Ne, memRead_eq_none_iff, Nat.not_lt]
  exact inRange_iff_bytes (width_bytes_pos w)

/-! ## Little-endian composition and splitting (R62, R63) -/

theorem extract_readWord (m : Memory) (a : Nat) {k : Nat} (hk : k < 4) :
    (m.readWord a).extractLsb' (8 * k) 8 = m.readByte (a + k) := by
  unfold Memory.readWord wordOfBytes
  obtain rfl | rfl | rfl | rfl : k = 0 ∨ k = 1 ∨ k = 2 ∨ k = 3 := by omega
  · exact BitVec.extractLsb'_append_eq_right
  · rw [BitVec.extractLsb'_append_eq_of_le (by decide)]
    exact BitVec.extractLsb'_append_eq_right
  · rw [BitVec.extractLsb'_append_eq_of_le (by decide), BitVec.extractLsb'_append_eq_of_le (by decide)]
    exact BitVec.extractLsb'_append_eq_right
  · rw [BitVec.extractLsb'_append_eq_of_le (by decide), BitVec.extractLsb'_append_eq_of_le (by decide)]
    exact BitVec.extractLsb'_append_eq_left

/-- Byte `k` of the value a read composes is the byte at address `a + k` (R62). -/
theorem extract_read (m : Memory) (a : Nat) (w : Width) {k : Nat} (hk : k < w.bytes) :
    (m.read a w).extractLsb' (8 * k) 8 = m.readByte (a + k) := by
  cases w with
  | byte =>
    obtain rfl : k = 0 := Nat.lt_one_iff.mp hk
    exact BitVec.extractLsb'_eq_self
  | half =>
    obtain rfl | rfl : k = 0 ∨ k = 1 := by simp only [Width.bytes] at hk; omega
    · exact BitVec.extractLsb'_append_eq_right
    · exact BitVec.extractLsb'_append_eq_left
  | word => exact extract_readWord m a hk

/-- Settles O22: the range lemmas, the bytes of a read and the bytes and frame of a store. -/
theorem memoryAccessIsLittleEndian : Obligations.MemoryAccessIsLittleEndian := by
  refine ⟨fun s addr v w => ⟨fun h => ?_, fun h => ?_⟩, fun s addr w v k h hk => ?_,
    fun s t addr v w h => ?_⟩
  · exact ⟨memRead_eq_none h, memWrite_eq_none h⟩
  · exact ⟨⟨_, memRead_eq_some h⟩, _, memWrite_eq_some h⟩
  · obtain ⟨-, rfl⟩ := memRead_eq_some_iff.mp h
    exact (extract_read s.mem addr.toNat w hk).symm
  · obtain ⟨-, rfl⟩ := memWrite_eq_some_iff.mp h
    obtain ⟨hbytes, hframe, hsize, -⟩ := storeEffect_store s addr.toNat w.bytes v
    exact ⟨hbytes, hframe, hsize, rfl⟩

/-! ## A stored value loaded back (R76) -/

/-- A read of the width and place of a store gives the low bits of the stored value. -/
theorem read_store (m : Memory) (a : Nat) (v : Word) (w : Width) :
    (m.store a v w.bytes).read a w = v.extractLsb' 0 w.bits := by
  have hbyte (n k : Nat) (hk : k < n) : (m.store a v n).readByte (a + k) = byteOf v k := by
    rw [readByte_store, if_pos (by omega), Nat.add_sub_cancel_left]
  cases w with
  | byte => exact hbyte 1 0 (by decide)
  | half =>
    have hlow : (m.store a v 2).readByte a = byteOf v 0 := hbyte 2 0 (by decide)
    have hhigh := hbyte 2 1 (by decide)
    calc (m.store a v 2).readByte (a + 1) ++ (m.store a v 2).readByte a
        = byteOf v 1 ++ byteOf v 0 := by rw [hhigh, hlow]
      _ = v.extractLsb' 0 16 := BitVec.extractLsb'_append_extractLsb'_eq_extractLsb' rfl
  | word => exact (readWord_store m a v).trans BitVec.extractLsb'_eq_self.symm

theorem memRead_of_memWrite {s t : State} {addr v : Word} {w : Width}
    (h : s.memWrite addr w v = some t) : t.memRead addr w = some (v.extractLsb' 0 w.bits) := by
  obtain ⟨hr, rfl⟩ := memWrite_eq_some_iff.mp h
  rw [memRead_eq_some (by simpa using hr), State.setMem_mem, read_store]

/-- A load from where a value of its width was just stored extends the low bits of that value. -/
theorem loadInto_of_memWrite {s t : State} {addr ea v x : Word} {w : Width}
    {extend : BitVec w.bits → Word} (h : s.memWrite addr w v = some t) (hea : ea = addr)
    (hx : extend (v.extractLsb' 0 w.bits) = x) (rd : RegIdx) :
    ∃ u, loadInto w extend rd ea t = .next u ∧ RegisterEffect t u rd x (t.pc + 4#32) := by
  subst hea hx
  refine ⟨_, ?_, registerEffect_result t rd _⟩
  rw [loadInto, memRead_of_memWrite h]
  rfl

/-- Zero-extending the low `n` bits is masking with `n` ones. -/
theorem zext32_low_bits (v : Word) {n : Nat} (hn : n ≤ 32) :
    zext32 (v.extractLsb' 0 n) = v &&& BitVec.ofNat 32 (2 ^ n - 1) := by
  apply BitVec.eq_of_toNat_eq
  have hpow : 2 ^ n ≤ 2 ^ 32 := Nat.pow_le_pow_right (by decide) hn
  have hlt : v.toNat % 2 ^ n < 2 ^ 32 := (Nat.mod_lt _ (Nat.two_pow_pos n)).trans_le hpow
  have hmask : 2 ^ n - 1 < 2 ^ 32 := by omega
  rw [zext32, BitVec.toNat_setWidth, BitVec.extractLsb'_toNat, Nat.shiftRight_zero, BitVec.toNat_and,
    BitVec.toNat_ofNat, Nat.mod_eq_of_lt hlt, Nat.mod_eq_of_lt hmask, Nat.and_two_pow_sub_one_eq_mod]

theorem zext32_whole (v : Word) : zext32 (v.extractLsb' 0 32) = v := by
  rw [BitVec.extractLsb'_eq_self, zext32, BitVec.setWidth_eq]

/-- Settles O23: for each width, the write in range, the read, and each load of that width. -/
theorem storeThenLoadRoundTrip : Obligations.StoreThenLoadRoundTrip := by
  intro s addr v
  refine ⟨fun hr => ?_, fun hr => ?_, fun hr => ?_⟩
  · have hw := memWrite_eq_some (v := v) (w := .word) hr
    refine ⟨_, hw, ?_, fun rd rs1 imm hea => ?_⟩
    · exact (memRead_of_memWrite hw).trans (congrArg some BitVec.extractLsb'_eq_self)
    · exact loadInto_of_memWrite hw hea (zext32_whole v) rd
  · have hw := memWrite_eq_some (v := v) (w := .half) hr
    refine ⟨_, hw, memRead_of_memWrite hw, fun rd rs1 imm hea => ⟨?_, ?_⟩⟩
    · exact loadInto_of_memWrite hw hea (zext32_low_bits v (n := 16) (by decide)) rd
    · exact loadInto_of_memWrite (extend := sext32) hw hea rfl rd
  · have hw := memWrite_eq_some (v := v) (w := .byte) hr
    refine ⟨_, hw, memRead_of_memWrite hw, fun rd rs1 imm hea => ⟨?_, ?_⟩⟩
    · exact loadInto_of_memWrite hw hea (zext32_low_bits v (n := 8) (by decide)) rd
    · exact loadInto_of_memWrite (extend := sext32) hw hea rfl rd

/-! ## Fetching a stored word (R73) -/

theorem fetch_of_stored {t : State} {m : Memory} {v : Word}
    (hmem : t.mem = m.store t.pc.toNat v 4) (hr : t.pc.toNat + 4 ≤ m.size) :
    t.fetch = some v := by
  rw [fetch_eq_some (by rwa [hmem, store_size]), hmem, readWord_store]

/-- Settles O24: the fetch reads the memory that the store left. -/
theorem storedWordIsTheNextFetch : Obligations.StoredWordIsTheNextFetch := by
  intro rs1 rs2 imm s hr
  rcases storeFrom_cases .word (s.readReg rs1 + imm) (s.readReg rs2) s with ⟨hout, -⟩ | ⟨-, hstore⟩
  · exact absurd hr (Nat.not_le_of_lt hout)
  · refine ⟨_, hstore, fetch_of_stored (m := s.mem) rfl hr, fun hnext => ?_⟩
    rw [hnext] at hr ⊢
    exact fetch_of_stored rfl hr

/-! ## What a step does to memory (R70, R226) -/

/-- A store instruction is one `MemWrite` at its data access. -/
theorem exec_of_isStore {i : Instr} (hs : isStore i = true) (s : State) :
    ∃ w ea v, exec i s = storeFrom w ea v s ∧ dataAccess s i = some (ea.toNat, w.bytes) := by
  cases i with
  | sb | sh | sw => exact ⟨_, _, _, rfl, rfl⟩
  | _ => cases hs

theorem exec_mem_of_not_store {i : Instr} {s t : State} (hs : isStore i = false)
    (he : exec i s = .next t) : t.mem = s.mem := by
  have hshape := exec_shape i s
  rw [he] at hshape
  cases hshape with
  | result | jump => simp
  | trap | taken | sequential | exit => rfl
  | store _ _ _ _ hstore => rw [hs] at hstore; cases hstore

theorem exec_mem_size {i : Instr} {s t : State} (he : exec i s = .next t) :
    t.mem.size = s.mem.size := by
  have hshape := exec_shape i s
  rw [he] at hshape
  cases hshape with
  | result | jump | store => simp
  | trap | taken | sequential | exit => rfl

/-- A byte that an instruction changes lies in the data access of a store. -/
theorem exec_changes_byte {i : Instr} {s t : State} {b : Nat} (he : exec i s = .next t)
    (hb : t.mem.readByte b ≠ s.mem.readByte b) :
    isStore i = true ∧ ∃ a n, dataAccess s i = some (a, n) ∧ a ≤ b ∧ b < a + n := by
  cases hs : isStore i with
  | false => exact absurd (by rw [exec_mem_of_not_store hs he]) hb
  | true =>
    obtain ⟨w, ea, v, hexec, hacc⟩ := exec_of_isStore hs s
    refine ⟨rfl, _, _, hacc, ?_⟩
    rw [hexec] at he
    rcases storeFrom_cases w ea v s with ⟨-, htrap⟩ | ⟨-, hstore⟩
    · obtain rfl := Host.Outcome.next.inj (htrap.symm.trans he)
      exact absurd rfl hb
    · obtain rfl := Host.Outcome.next.inj (hstore.symm.trans he)
      by_contra hout
      rw [State.advance_mem, State.setMem_mem, readByte_store, if_neg hout] at hb
      exact hb rfl

theorem cycle_mem_size {s t : State} (hc : CycleShape s t) : t.mem.size = s.mem.size := by
  cases hc with
  | executes w i t _ _ _ he => exact exec_mem_size he
  | fetchFails | sentinel | illegal => rfl

theorem runs_of_cycle_changes_byte {s t : State} {b : Nat} (hrun : s.status = .running)
    (hc : CycleShape s t) (hb : t.mem.readByte b ≠ s.mem.readByte b) :
    ∃ i a n, Runs s i ∧ isStore i = true ∧ dataAccess s i = some (a, n) ∧ a ≤ b ∧ b < a + n := by
  cases hc with
  | executes w i t hf _ hd he =>
    obtain ⟨hs, a, n, hrange⟩ := exec_changes_byte he hb
    exact ⟨i, a, n, ⟨hrun, w, fetches_iff.mpr hf, hd⟩, hs, hrange⟩
  | fetchFails | sentinel | illegal => exact absurd rfl hb

/-- Settles O36: the one instruction a step runs, and the debug record, which touches no memory. -/
theorem onlyStoresChangeMemory : Obligations.OnlyStoresChangeMemory := by
  intro s u hstep
  obtain ⟨hrun, t, hc, rfl⟩ := step_cases hstep
  rw [withRecord_mem]
  exact ⟨cycle_mem_size hc, fun b hb => runs_of_cycle_changes_byte hrun hc hb⟩

end Sys2Proof.Proofs

/-! # The family of 30_encoding.md: the decoder and the encoder undo each other (R93 to R101, R116), the
words that raise `IllegalInstruction` (R111 to R114), the immediate shifts (R157 to R159) and the
expansions of `li`, `la` and `call` (R122) -/

namespace Sys2Proof.Proofs
open Sys2Proof Sys2Proof.Machine Sys2Proof.Claims

/-! ## The decoder of each primary opcode (R101) -/

section
variable {w : Word}

theorem decode_lui (hop : opcodeOf w = 0b0110111#7) : decode w = .ok (.lui (rdOf w) (immU w)) := by
  simp only [decode, hop]

theorem decode_auipc (hop : opcodeOf w = 0b0010111#7) :
    decode w = .ok (.auipc (rdOf w) (immU w)) := by
  simp only [decode, hop]

theorem decode_jal (hop : opcodeOf w = 0b1101111#7) : decode w = .ok (.jal (rdOf w) (immJ w)) := by
  simp only [decode, hop]

theorem decode_jalr (hop : opcodeOf w = 0b1100111#7) : decode w = decodeJalr w := by
  simp only [decode, hop]

theorem decode_branch (hop : opcodeOf w = 0b1100011#7) : decode w = decodeBranch w := by
  simp only [decode, hop]

theorem decode_load (hop : opcodeOf w = 0b0000011#7) : decode w = decodeLoad w := by
  simp only [decode, hop]

theorem decode_store (hop : opcodeOf w = 0b0100011#7) : decode w = decodeStore w := by
  simp only [decode, hop]

theorem decode_opImm (hop : opcodeOf w = 0b0010011#7) : decode w = decodeOpImm w := by
  simp only [decode, hop]

theorem decode_op (hop : opcodeOf w = 0b0110011#7) : decode w = decodeOp w := by
  simp only [decode, hop]

theorem decode_miscMem (hop : opcodeOf w = 0b0001111#7) : decode w = decodeMiscMem w := by
  simp only [decode, hop]

theorem decode_system (hop : opcodeOf w = 0b1110011#7) : decode w = decodeSystem w := by
  simp only [decode, hop]

end

/-! ## Decoding an encoded instruction (R93 to R99) -/

/-- Settles O1: the opcode of the encoded word picks the decoder, and the fields give the operands
back, the immediate because it is well-formed. -/
theorem decodeOfEncodeIsTheInstruction : Obligations.DecodeOfEncodeIsTheInstruction := by
  intro i h
  cases i with
  | addi | slti | sltiu | xori | ori | andi =>
    simp only [encode, encodeImm, decode_opImm, decodeOpImm, fields_encodeI, immI, signExtend_imm12 h]
  | slli | srli | srai =>
    simp [encode, encodeShift, decode_opImm, decodeOpImm, fields_encodeR]
  | add | sub | sll | slt | sltu | xor | srl | sra | or | and =>
    simp [encode, decode_op, decodeOp, fields_encodeR]
  | lui => simp only [encode, decode_lui, fields_encodeU, append_immU h]
  | auipc => simp only [encode, decode_auipc, fields_encodeU, append_immU h]
  | jal => simp only [encode, decode_jal, fields_encodeJ, signExtend_immJ h]
  | jalr =>
    simp only [encode, encodeImm, decode_jalr, decodeJalr, fields_encodeI, immI, signExtend_imm12 h,
      if_true]
  | beq | bne | blt | bge | bltu | bgeu =>
    simp only [encode, decode_branch, decodeBranch, fields_encodeB, signExtend_immB h]
  | lb | lh | lw | lbu | lhu =>
    simp only [encode, encodeImm, decode_load, decodeLoad, fields_encodeI, immI, signExtend_imm12 h]
  | sb | sh | sw =>
    simp only [encode, decode_store, decodeStore, fields_encodeS, signExtend_imm12 h]
  | fence => simp only [encode, decode_miscMem, decodeMiscMem, fields_encodeI, if_true]
  | ecall => rfl
  | ebreak => rfl

/-! ## Encoding a decoded word (R100, R116): each format's fields, put together, are the word -/

section
variable {w : Word} {f7 : BitVec 7} {f3 : BitVec 3} {op : BitVec 7}

theorem encodeR_fields (h7 : funct7Of w = f7) (h3 : funct3Of w = f3) (hop : opcodeOf w = op) :
    encodeR f7 f3 op (rdOf w) (rs1Of w) (rs2Of w) = w := by
  subst h7 h3 hop
  apply BitVec.eq_of_getLsbD_eq
  intro k hk
  simp only [encodeR, opcodeOf, rdOf, funct3Of, rs1Of, rs2Of, funct7Of, BitVec.getLsbD_append,
    BitVec.getLsbD_extractLsb']
  interval_cases k <;> rfl

theorem encodeI_fields (h3 : funct3Of w = f3) (hop : opcodeOf w = op) :
    encodeI f3 op (rdOf w) (rs1Of w) (imm12Of w) = w := by
  subst h3 hop
  apply BitVec.eq_of_getLsbD_eq
  intro k hk
  simp only [encodeI, opcodeOf, rdOf, funct3Of, rs1Of, imm12Of, BitVec.getLsbD_append,
    BitVec.getLsbD_extractLsb']
  interval_cases k <;> rfl

theorem encodeImm_fields (h3 : funct3Of w = f3) (hop : opcodeOf w = op) :
    encodeImm f3 op (rdOf w) (rs1Of w) (immI w) = w := by
  have himm : (immI w).extractLsb' 0 12 = imm12Of w := by
    apply BitVec.eq_of_getLsbD_eq
    intro k hk
    simp only [immI, BitVec.getLsbD_extractLsb', BitVec.getLsbD_signExtend]
    interval_cases k <;> rfl
  rw [encodeImm, himm, encodeI_fields h3 hop]

theorem encodeS_fields (h3 : funct3Of w = f3) (hop : opcodeOf w = op) :
    encodeS f3 op (rs1Of w) (rs2Of w) (immS w) = w := by
  subst h3 hop
  apply BitVec.eq_of_getLsbD_eq
  intro k hk
  simp only [encodeS, opcodeOf, immS, rdOf, funct3Of, rs1Of, rs2Of, funct7Of, BitVec.getLsbD_append,
    BitVec.getLsbD_extractLsb', BitVec.getLsbD_signExtend]
  interval_cases k <;> rfl

theorem encodeB_fields (h3 : funct3Of w = f3) (hop : opcodeOf w = op) :
    encodeB f3 op (rs1Of w) (rs2Of w) (immB w) = w := by
  subst h3 hop
  apply BitVec.eq_of_getLsbD_eq
  intro k hk
  simp only [encodeB, opcodeOf, immB, funct3Of, rs1Of, rs2Of, BitVec.getLsbD_append,
    BitVec.getLsbD_extractLsb', BitVec.getLsbD_signExtend]
  interval_cases k <;> rfl

theorem encodeU_fields (hop : opcodeOf w = op) : encodeU op (rdOf w) (immU w) = w := by
  subst hop
  apply BitVec.eq_of_getLsbD_eq
  intro k hk
  simp only [encodeU, opcodeOf, immU, rdOf, BitVec.getLsbD_append, BitVec.getLsbD_extractLsb']
  interval_cases k <;> rfl

theorem encodeJ_fields (hop : opcodeOf w = op) : encodeJ op (rdOf w) (immJ w) = w := by
  subst hop
  apply BitVec.eq_of_getLsbD_eq
  intro k hk
  simp only [encodeJ, opcodeOf, immJ, rdOf, BitVec.getLsbD_append, BitVec.getLsbD_extractLsb',
    BitVec.getLsbD_signExtend]
  interval_cases k <;> rfl

end

section
variable {w : Word} {i : Instr}

theorem encode_of_decodeJalr (hop : opcodeOf w = 0b1100111#7) (h : decodeJalr w = .ok i) :
    encode i = w := by
  unfold decodeJalr at h
  split at h <;> cases h
  exact encodeImm_fields ‹_› hop

theorem encode_of_decodeBranch (hop : opcodeOf w = 0b1100011#7) (h : decodeBranch w = .ok i) :
    encode i = w := by
  unfold decodeBranch at h
  split at h <;> cases h
  all_goals exact encodeB_fields ‹_› hop

theorem encode_of_decodeLoad (hop : opcodeOf w = 0b0000011#7) (h : decodeLoad w = .ok i) :
    encode i = w := by
  unfold decodeLoad at h
  split at h <;> cases h
  all_goals exact encodeImm_fields ‹_› hop

theorem encode_of_decodeStore (hop : opcodeOf w = 0b0100011#7) (h : decodeStore w = .ok i) :
    encode i = w := by
  unfold decodeStore at h
  split at h <;> cases h
  all_goals exact encodeS_fields ‹_› hop

theorem encode_of_decodeOp (hop : opcodeOf w = 0b0110011#7) (h : decodeOp w = .ok i) :
    encode i = w := by
  unfold decodeOp at h
  split at h
  · split at h <;> cases h
    all_goals exact encodeR_fields ‹_› ‹_› hop
  · split at h
    · split at h <;> cases h
      all_goals exact encodeR_fields ‹_› ‹_› hop
    · cases h

theorem encode_of_decodeOpImm (hop : opcodeOf w = 0b0010011#7) (h : decodeOpImm w = .ok i) :
    encode i = w := by
  unfold decodeOpImm at h
  split at h
  case h_1 | h_2 | h_3 | h_4 | h_5 | h_6 => cases h; exact encodeImm_fields ‹_› hop
  case h_7 =>
    split at h <;> cases h
    exact encodeR_fields ‹_› ‹_› hop
  case h_8 =>
    split at h
    · cases h
      exact encodeR_fields ‹_› ‹_› hop
    · split at h <;> cases h
      exact encodeR_fields ‹_› ‹_› hop
  case h_9 => cases h

theorem encode_of_decodeMiscMem (hop : opcodeOf w = 0b0001111#7) (h : decodeMiscMem w = .ok i) :
    encode i = w := by
  unfold decodeMiscMem at h
  split at h <;> cases h
  exact encodeI_fields ‹_› hop

theorem encode_of_decodeSystem (h : decodeSystem w = .ok i) : encode i = w := by
  unfold decodeSystem at h
  split at h
  · cases h
    exact Eq.symm ‹_›
  · split at h <;> cases h
    exact Eq.symm ‹_›

theorem encode_of_decode (h : decode w = .ok i) : encode i = w := by
  unfold decode at h
  split at h <;> rename_i hop
  case h_1 | h_2 => cases h; exact encodeU_fields hop
  case h_3 => cases h; exact encodeJ_fields hop
  case h_4 => exact encode_of_decodeJalr hop h
  case h_5 => exact encode_of_decodeBranch hop h
  case h_6 => exact encode_of_decodeLoad hop h
  case h_7 => exact encode_of_decodeStore hop h
  case h_8 => exact encode_of_decodeOpImm hop h
  case h_9 => exact encode_of_decodeOp hop h
  case h_10 => exact encode_of_decodeMiscMem hop h
  case h_11 => exact encode_of_decodeSystem h
  case h_12 => cases h

end

/-- Settles O2: what decodes is well-formed, and its encoding puts the fields read back in place. -/
theorem encodeOfDecodeIsTheWord : Obligations.EncodeOfDecodeIsTheWord :=
  fun _ _ h => ⟨decode_wf h, encode_of_decode h⟩

/-! ## Words that raise `IllegalInstruction` (R111 to R114) -/

/-- The eleven primary opcodes of R101. -/
def primaryOpcodes : List (BitVec 7) :=
  [0b0110111#7, 0b0010111#7, 0b1101111#7, 0b1100111#7, 0b1100011#7, 0b0000011#7, 0b0100011#7,
    0b0010011#7, 0b0110011#7, 0b0001111#7, 0b1110011#7]

theorem sameButDump_withRecord (s t : State) : SameButDump s t (withRecord s t) := by
  unfold withRecord
  split
  · rename_i h
    exact .inr ⟨(Bool.and_eq_true_iff.mp h).1, dumpRecord s t, rfl⟩
  · exact .inl rfl

section
variable {w : Word} {r : Reject}

/-- A running state that fetches a word the decoder rejects traps, unless the word is the sentinel. -/
theorem stepEnds_of_decode_error {s : State} (h : decode w = .error r) (hw : w ≠ 0#32)
    (hrun : s.status = .running) (hfetch : Fetches s w) :
    StepEnds s (.trapped .illegalInstruction) := by
  have hcycle : cycle s = raise .illegalInstruction s := by
    simp only [cycle, fetches_iff.mp hfetch, executeWord, if_neg hw, h]
  obtain ⟨t, hnext, -, hstep⟩ := step_running hrun
  obtain rfl := Host.Outcome.next.inj (hnext.symm.trans hcycle)
  exact ⟨_, hstep, sameButDump_withRecord s _⟩

theorem illegal_of_decode_error (h : decode w = .error r) : Illegal w :=
  ⟨⟨r, h⟩, fun hw _ => stepEnds_of_decode_error h hw⟩

theorem decode_of_not_primary (h : opcodeOf w ∉ primaryOpcodes) :
    decode w = .error .unknownOpcode := by
  unfold decode
  split
  case h_12 => rfl
  all_goals
    rename_i hop
    exact absurd (by rw [hop]; decide) h

theorem not_primary_of_low_bits (h : w.extractLsb' 0 2 ≠ 0b11#2) : opcodeOf w ∉ primaryOpcodes := by
  have hlow : w.extractLsb' 0 2 = (opcodeOf w).extractLsb' 0 2 := by
    apply BitVec.eq_of_toNat_eq
    simp only [opcodeOf, BitVec.extractLsb'_toNat, Nat.shiftRight_zero]
    exact (Nat.mod_mod_of_dvd w.toNat (by decide)).symm
  have hall : ∀ op ∈ primaryOpcodes, op.extractLsb' 0 2 = 0b11#2 := by decide
  exact fun hmem => h (hlow.trans (hall _ hmem))

end

/-- Settles O4: the decoder names the eleven opcodes, and each of them ends in the bits `11`. -/
theorem unrecognizedOpcodesAreRejected : Obligations.UnrecognizedOpcodesAreRejected :=
  ⟨fun _ h => illegal_of_decode_error (decode_of_not_primary h),
    fun _ h => illegal_of_decode_error (decode_of_not_primary (not_primary_of_low_bits h))⟩

/-- Settles O5: the SYSTEM decoder compares the whole word, and the MISC-MEM decoder tests funct3. -/
theorem systemWordsAreExactlyTwo : Obligations.SystemWordsAreExactlyTwo := by
  refine ⟨fun w hop => ⟨?_, ?_, fun hecall hebreak => ?_⟩, fun w hop h3 => ?_⟩
  · rintro rfl
    rfl
  · rintro rfl
    rfl
  · apply illegal_of_decode_error (r := .reservedSystem)
    rw [decode_system hop, decodeSystem, if_neg hecall, if_neg hebreak]
  · apply illegal_of_decode_error (r := .reservedMiscMem)
    exact (decode_miscMem hop).trans (if_neg h3)

section
variable {w : Word}

theorem decodeOp_undefined (h0 : funct7Of w ≠ 0b0000000#7)
    (h32 : ¬ (funct7Of w = 0b0100000#7 ∧ funct3Of w ∈ [0b000#3, 0b101#3])) :
    decodeOp w = .error .undefinedFunct := by
  rw [decodeOp, if_neg h0]
  split
  · rename_i h7
    split
    case h_3 => rfl
    all_goals
      rename_i h3
      exact absurd ⟨h7, by rw [h3]; decide⟩ h32
  · rfl

theorem decodeBranch_undefined (h3 : funct3Of w ∈ [0b010#3, 0b011#3]) :
    decodeBranch w = .error .undefinedFunct := by
  unfold decodeBranch
  split
  case h_7 => rfl
  all_goals
    rename_i h
    exact absurd (h ▸ h3) (by decide)

theorem decodeLoad_undefined (h3 : funct3Of w ∈ [0b011#3, 0b110#3, 0b111#3]) :
    decodeLoad w = .error .undefinedFunct := by
  unfold decodeLoad
  split
  case h_6 => rfl
  all_goals
    rename_i h
    exact absurd (h ▸ h3) (by decide)

theorem decodeStore_undefined (h3 : funct3Of w ∉ [0b000#3, 0b001#3, 0b010#3]) :
    decodeStore w = .error .undefinedFunct := by
  unfold decodeStore
  split
  case h_4 => rfl
  all_goals
    rename_i h
    exact absurd (h ▸ h3) (by decide)

theorem decodeJalr_undefined (h3 : funct3Of w ≠ 0b000#3) :
    decodeJalr w = .error .undefinedFunct := if_neg h3

end

/-- Settles O6: each of the five decoders rejects the combinations it does not list. -/
theorem undefinedFunctCombinationsAreRejected :
    Obligations.UndefinedFunctCombinationsAreRejected := by
  refine ⟨fun w hop h0 h32 => ?_, fun w hop h3 => ?_, fun w hop h3 => ?_, fun w hop h3 => ?_,
    fun w hop h3 => ?_⟩
  · exact illegal_of_decode_error ((decode_op hop).trans (decodeOp_undefined h0 h32))
  · exact illegal_of_decode_error ((decode_branch hop).trans (decodeBranch_undefined h3))
  · exact illegal_of_decode_error ((decode_load hop).trans (decodeLoad_undefined h3))
  · exact illegal_of_decode_error ((decode_store hop).trans (decodeStore_undefined h3))
  · exact illegal_of_decode_error ((decode_jalr hop).trans (decodeJalr_undefined h3))

/-! ## The immediate shifts (R114, R157 to R159) -/

/-- An instruction that writes one result to `rd` has the effect R136 and R137 give it. -/
theorem writeResult_effect (s : State) (rd : RegIdx) {v x : Word} (hv : v = x) :
    ∃ t, writeResult rd v s = .next t ∧ RegisterEffect s t rd x (s.pc + 4#32) :=
  ⟨_, rfl, hv ▸ registerEffect_result s rd v⟩

theorem shiftLeft_eq (a : Word) (k : Nat) : a <<< k = shiftLeft a k := by
  apply BitVec.eq_of_toNat_eq
  rw [shiftLeft, BitVec.toNat_shiftLeft, Nat.shiftLeft_eq, BitVec.toNat_ofNat]

theorem ushiftRight_eq_shiftRightLogical (a : Word) (k : Nat) : a >>> k = shiftRightLogical a k := by
  rw [shiftRightLogical, ← Nat.shiftRight_eq_div_pow, ← BitVec.toNat_ushiftRight,
    BitVec.ofNat_toNat, BitVec.setWidth_eq]

theorem sshiftRight_eq_shiftRightArithmetic (a : Word) (k : Nat) :
    a.sshiftRight k = shiftRightArithmetic a k := by
  have hpow : a.toInt / 2 ^ k = (a.sshiftRight k).toInt := by
    rw [BitVec.toInt_sshiftRight, Int.shiftRight_eq_div_pow]
    norm_cast
  rw [shiftRightArithmetic, hpow, BitVec.ofInt_toInt]

section
variable {w : Word}

theorem decodeOpImm_shiftLeft_upperBits (h3 : funct3Of w = 0b001#3) (h7 : funct7Of w ≠ 0b0000000#7) :
    decodeOpImm w = .error .shiftUpperBits := by
  simp only [decodeOpImm, h3, if_neg h7]

theorem decodeOpImm_shiftRight_upperBits (h3 : funct3Of w = 0b101#3)
    (h7 : funct7Of w ∉ [0b0000000#7, 0b0100000#7]) : decodeOpImm w = .error .shiftUpperBits := by
  obtain ⟨h0, h32⟩ : funct7Of w ≠ 0b0000000#7 ∧ funct7Of w ≠ 0b0100000#7 := by simpa using h7
  simp only [decodeOpImm, h3, if_neg h0, if_neg h32]

end

theorem decodesShift_of {f7 : BitVec 7} {f3 : BitVec 3} {mk : RegIdx → RegIdx → BitVec 5 → Instr}
    (h : ∀ w, funct3Of w = f3 → funct7Of w = f7 →
      decodeOpImm w = .ok (mk (rdOf w) (rs1Of w) (rs2Of w))) : DecodesShift f7 f3 mk :=
  fun w hop h3 h7 => (decode_opImm hop).trans (h w h3 h7)

/-- Settles O10: the decoder tests the upper bits, and each shift is the arithmetic it stands for. -/
theorem immediateShifts : Obligations.ImmediateShifts := by
  refine ⟨⟨?_, ?_, fun w hop h3 h7 => ?_⟩, ⟨?_, ?_, fun w hop h3 h7 => ?_⟩, ?_, ?_⟩
  · exact decodesShift_of fun w h3 h7 => by simp only [decodeOpImm, h3, h7, if_true]
  · exact fun rd rs1 k s => writeResult_effect s rd (shiftLeft_eq _ _)
  · exact illegal_of_decode_error
      ((decode_opImm hop).trans (decodeOpImm_shiftLeft_upperBits h3 h7))
  · exact decodesShift_of fun w h3 h7 => by simp only [decodeOpImm, h3, h7, if_true]
  · exact fun rd rs1 k s => writeResult_effect s rd (ushiftRight_eq_shiftRightLogical _ _)
  · exact illegal_of_decode_error
      ((decode_opImm hop).trans (decodeOpImm_shiftRight_upperBits h3 h7))
  · exact decodesShift_of fun w h3 h7 => by simp [decodeOpImm, h3, h7]
  · exact fun rd rs1 k s => writeResult_effect s rd (sshiftRight_eq_shiftRightArithmetic _ _)

/-! ## The expansions of `li`, `la` and `call` (R122) -/

theorem execList_single {i : Instr} {s t : State} (hi : exec i s = .next t) :
    execList [i] s = .next t := by
  simp only [execList, hi, ite_self]

theorem execList_pair {i j : Instr} {s t u : State} (hi : exec i s = .next t)
    (ht : t.status = .running) (hj : exec j t = .next u) : execList [i, j] s = .next u := by
  rw [execList, hi]
  exact (if_pos ht).trans (execList_single hj)

/-- The two halves a constant is split into add up to it. -/
theorem add_hi20_add_lo12 (a x : Word) : a + hi20 x + lo12 x = a + x := by
  rw [BitVec.add_assoc, hi20, BitVec.sub_add_cancel]

theorem add_four_add_four (p : Word) : p + 4#32 + 4#32 = p + 8#32 := BitVec.add_assoc p 4#32 4#32

section
variable {s t u : State} {rd : RegIdx} {v x p : Word}

theorem pc_of_registerEffect (h : RegisterEffect s t rd v p) : t.pc = p := by
  obtain ⟨-, hpc, -⟩ := h
  exact hpc

theorem status_of_registerEffect (h : RegisterEffect s t rd v p) : t.status = s.status := by
  obtain ⟨-, -, -, hstatus, -⟩ := h
  exact hstatus

theorem readReg_of_registerEffect (h : RegisterEffect s t rd v p) (hrd : rd ≠ 0#5) :
    t.readReg rd = v := by
  obtain ⟨hregs, -⟩ := h
  rw [hregs, if_neg hrd, if_pos rfl]

/-- Two results written to one `rd`: the second stays. What value it is matters only where `rd` is
not `x0`. -/
theorem registerEffect_trans {w q : Word} (h : RegisterEffect s t rd v p)
    (h' : RegisterEffect t u rd w q) (hx : rd ≠ 0#5 → w = x) : RegisterEffect s u rd x q := by
  obtain ⟨hregs, -, ⟨hsize, hbytes⟩, hstatus, hdebug, hdump⟩ := h
  obtain ⟨hregs', hpc', ⟨hsize', hbytes'⟩, hstatus', hdebug', hdump'⟩ := h'
  refine ⟨fun r => ?_, hpc', ⟨hsize'.trans hsize, fun a => (hbytes' a).trans (hbytes a)⟩,
    hstatus'.trans hstatus, hdebug'.trans hdebug, hdump'.trans hdump⟩
  rw [hregs']
  by_cases hr : r = 0#5
  · rw [if_pos hr, if_pos hr]
  · rw [if_neg hr, if_neg hr]
    by_cases hrd : r = rd
    · rw [if_pos hrd, if_pos hrd, hx (hrd ▸ hr)]
    · rw [if_neg hrd, if_neg hrd, hregs, if_neg hr, if_neg hrd]

end

/-- An instruction that leaves `v` in `rd`, then an ADDI of `rd` to itself: what the expansions of
`li` and `la` have in common. Where `rd` is `x0` the ADDI reads 0, but nothing is written. -/
theorem execList_then_addi {i : Instr} {rd : RegIdx} {v : Word} {s : State}
    (hi : exec i s = writeResult rd v s) (hrun : s.status = .running) (low : Word) :
    ∃ t, execList [i, .addi rd rd low] s = .next t ∧
      RegisterEffect s t rd (v + low) (s.pc + 8#32) := by
  obtain ⟨t, ht, hfirst⟩ := writeResult_effect s rd (v := v) rfl
  obtain ⟨u, hu, hsecond⟩ := writeResult_effect t rd (v := t.readReg rd + low) rfl
  refine ⟨u, execList_pair (hi.trans ht) ((status_of_registerEffect hfirst).trans hrun) hu, ?_⟩
  rw [pc_of_registerEffect hfirst, add_four_add_four] at hsecond
  exact registerEffect_trans hfirst hsecond fun hrd => by
    rw [readReg_of_registerEffect hfirst hrd]

/-- Settles O44: `li` is one ADDI from `x0` or an LUI and an ADDI, and `la` an AUIPC and an ADDI, whose
immediates add up. -/
theorem loadConstantAndAddress : Obligations.LoadConstantAndAddress := by
  refine fun rd x s hrun => ⟨?_, ?_⟩
  · by_cases hx : wfImm12 x = true
    · obtain ⟨t, ht, heffect⟩ := writeResult_effect s rd (v := s.readReg 0#5 + x) (BitVec.zero_add x)
      rw [Pseudo.expand, if_pos hx]
      exact ⟨t, execList_single ht, heffect⟩
    · obtain ⟨t, ht, heffect⟩ := execList_then_addi (i := .lui rd (hi20 x)) rfl hrun (lo12 x)
      rw [Pseudo.expand, if_neg hx]
      rw [hi20, BitVec.sub_add_cancel] at heffect
      exact ⟨t, ht, heffect⟩
  · obtain ⟨t, ht, heffect⟩ := execList_then_addi (i := .auipc rd (hi20 x)) rfl hrun (lo12 x)
    rw [pcRelative, add_hi20_add_lo12] at heffect
    exact ⟨t, ht, heffect⟩

/-- Clearing bit 0 of an even Word changes nothing. -/
theorem clear_bit_zero_of_even {a : Word} (h : a.toNat % 2 = 0) : a &&& 0xFFFFFFFE#32 = a := by
  have hbit : a.getLsbD 0 = false := by simpa [BitVec.getLsbD, Nat.testBit_zero] using h
  have hmask : ∀ k < 32, k ≠ 0 → (0xFFFFFFFE#32).getLsbD k = true := by decide
  apply BitVec.eq_of_getLsbD_eq
  intro k hk
  rw [BitVec.getLsbD_and]
  rcases eq_or_ne k 0 with rfl | hk0
  · rw [hbit, Bool.false_and]
  · rw [hmask k hk hk0, Bool.and_true]

/-- A jump to a multiple of 4 does not trap. -/
theorem jumpAndLink_effect (s : State) (rd : RegIdx) {target : Word} (h : target.toNat % 4 = 0) :
    ∃ t, jumpAndLink rd target s = .next t ∧ RegisterEffect s t rd (s.pc + 4#32) target := by
  rcases jumpAndLink_cases rd target s with ⟨hm, -⟩ | ⟨-, hjump⟩
  · rw [misaligned_iff] at hm
    omega
  · exact ⟨_, hjump, registerEffect_jump s rd _ target⟩

/-- Settles O45: AUIPC leaves the upper part of the target in `ra`, from where JALR reaches the whole of
it; being a multiple of 4, it keeps its bit 0 and passes the alignment test. -/
theorem callReachesItsTarget : Obligations.CallReachesItsTarget := by
  intro off s hrun hpc hoff
  have haligned : (s.pc + off).toNat % 4 = 0 := by
    rw [BitVec.toNat_add]
    omega
  obtain ⟨t, ht, hfirst⟩ := writeResult_effect s ra (v := s.pc + hi20 off) rfl
  have htarget : jalrTarget t ra (lo12 off) = s.pc + off := by
    rw [jalrTarget, readReg_of_registerEffect hfirst (by decide), add_hi20_add_lo12,
      clear_bit_zero_of_even (by omega)]
  obtain ⟨u, hu, hsecond⟩ := jumpAndLink_effect t ra haligned
  rw [pc_of_registerEffect hfirst, add_four_add_four] at hsecond
  refine ⟨u, execList_pair ht ((status_of_registerEffect hfirst).trans hrun) ?_,
    registerEffect_trans hfirst hsecond fun _ => rfl⟩
  rw [← hu, ← htarget]
  rfl

end Sys2Proof.Proofs

/-! # The family of 40_execution_cycle.md: what a step is (R130 to R135), from which states there is
one (R131, R138), the normal ends of a run (R132, R240), the sequential PC (R139) and the debug record
(R140) -/

namespace Sys2Proof.Proofs
open Sys2Proof Sys2Proof.Machine Sys2Proof.Claims

/-! ## A step is its cycle, apart from the debug record (R130) -/

section
variable {s t u : State}

theorem step_of_cycle (hrun : s.status = .running) (hc : cycle s = .next t) :
    step s = .next (withRecord s t) := by
  obtain ⟨t', hc', -, hstep⟩ := step_running hrun
  obtain rfl := Host.Outcome.next.inj (hc'.symm.trans hc)
  exact hstep

theorem eq_withRecord_of_cycle (hrun : s.status = .running) (hc : cycle s = .next t)
    (hstep : step s = .next u) : u = withRecord s t :=
  Host.Outcome.next.inj (hstep.symm.trans (step_of_cycle hrun hc))

theorem stepEnds_of_cycle {st : RunStatus} (hrun : s.status = .running)
    (hc : cycle s = .next (s.setStatus st)) : StepEnds s st :=
  ⟨_, step_of_cycle hrun hc, sameButDump_withRecord s _⟩

/-! ## What a cycle does with each fetched word (R132, R133, R135) -/

theorem cycle_of_fetch_fails (h : s.fetch = none) :
    cycle s = .next (s.setStatus (.trapped .fetchOutOfRange)) := by
  rw [cycle, h]
  rfl

theorem cycle_of_fetches {w : Word} (h : Fetches s w) : cycle s = executeWord w s := by
  rw [cycle, fetches_iff.mp h]

theorem cycle_of_sentinel (h : Fetches s 0#32) : cycle s = .next (s.setStatus .terminated) := by
  rw [cycle_of_fetches h, executeWord, if_pos rfl]
  rfl

/-- The sentinel is no instruction, so what decodes is executed. -/
theorem cycle_of_runs {i : Instr} (h : Runs s i) : cycle s = exec i s := by
  obtain ⟨-, w, hfetch, hdecode⟩ := h
  have hw : w ≠ 0#32 := by
    rintro rfl
    cases decode_zero.symm.trans hdecode
  simp only [cycle_of_fetches hfetch, executeWord, if_neg hw, hdecode]

end

/-- Settles O28: the cycle executes the decoded instruction; the step adds at most its record. -/
theorem stepRunsTheDecodedInstruction : Obligations.StepRunsTheDecodedInstruction := by
  intro s i hruns
  have ⟨hrun, _⟩ := hruns
  obtain ⟨t, hexec, -⟩ := exec_next i s
  exact ⟨t, _, hexec, step_of_cycle hrun ((cycle_of_runs hruns).trans hexec),
    sameButDump_withRecord s t⟩

/-- Settles O29: the three cycles that execute no instruction set the run status alone. -/
theorem fetchSentinelAndDecodeEndTheRun : Obligations.FetchSentinelAndDecodeEndTheRun := by
  refine fun s hrun => ⟨fun hr => ?_, fun hfetch => ?_, fun w hfetch hw hrejected => ?_⟩
  · exact stepEnds_of_cycle hrun (cycle_of_fetch_fails (fetch_eq_none hr))
  · exact stepEnds_of_cycle hrun (cycle_of_sentinel hfetch)
  · obtain ⟨r, hdecode⟩ := hrejected
    exact stepEnds_of_decode_error hdecode hw hrun hfetch

/-- Settles O30: every cycle completes, and the step tests the run status first. -/
theorem stepsExactlyFromRunning : Obligations.StepsExactlyFromRunning := by
  refine fun s => ⟨fun hrun => ?_, step_final⟩
  obtain ⟨t, -, -, hstep⟩ := step_running hrun
  exact ⟨_, hstep⟩

/-! ## The normal ends of a run (R132, R240) -/

/-- An instruction keeps the run status, traps, or is the exit call. -/
theorem exec_status_cases {i : Instr} {s t : State} (he : exec i s = .next t) :
    t.status = s.status ∨ (∃ k, t.status = .trapped k) ∨
      (i = .ecall ∧ s.readReg a7 = Config.exitSyscall ∧
        t.status = .exitedNormally (s.readReg a0).toInt) := by
  have hshape := exec_shape i s
  rw [he] at hshape
  cases hshape with
  | trap k => exact .inr (.inl ⟨k, rfl⟩)
  | exit hi ha => exact .inr (.inr ⟨hi, ha, rfl⟩)
  | result | jump | taken | sequential | store => exact .inl (by simp)

theorem exec_exitCall {s : State} (ha : s.readReg a7 = Config.exitSyscall) :
    exec .ecall s = .next (s.advance.setStatus (.exitedNormally (s.readReg a0).toInt)) :=
  if_pos ha

section
variable {s t : State}

/-- A cycle exits normally only by executing the exit call. -/
theorem exitCall_of_cycle_exits {code : Int} (hrun : s.status = .running) (hc : CycleShape s t)
    (ht : t.status = .exitedNormally code) :
    Runs s .ecall ∧ s.readReg a7 = Config.exitSyscall ∧ code = (s.readReg a0).toInt := by
  cases hc with
  | fetchFails | sentinel | illegal => cases ht
  | executes w i t hf _ hd he =>
    rcases exec_status_cases he with hkept | ⟨k, htrap⟩ | ⟨rfl, ha, hexit⟩
    · cases hrun.symm.trans (hkept.symm.trans ht)
    · cases htrap.symm.trans ht
    · exact ⟨⟨hrun, w, fetches_iff.mpr hf, hd⟩, ha,
        RunStatus.exitedNormally.inj (ht.symm.trans hexit)⟩

/-- A cycle ends as `Terminated` only at the sentinel: no instruction sets that status. -/
theorem fetches_zero_of_cycle_terminates (hrun : s.status = .running) (hc : CycleShape s t)
    (ht : t.status = .terminated) : Fetches s 0#32 := by
  cases hc with
  | fetchFails | illegal => cases ht
  | sentinel hf => exact fetches_iff.mpr hf
  | executes w i t _ _ _ he =>
    rcases exec_status_cases he with hkept | ⟨k, htrap⟩ | ⟨-, -, hexit⟩
    · cases hrun.symm.trans (hkept.symm.trans ht)
    · cases htrap.symm.trans ht
    · cases hexit.symm.trans ht

end

/-- Settles O33: each end is the one cycle that sets its status, and that cycle always sets it. -/
theorem normalEndsHaveExactlyTheirCauses : Obligations.NormalEndsHaveExactlyTheirCauses := by
  intro s u hrun hstep
  obtain ⟨-, t, hc, hu⟩ := step_cases hstep
  have hstatus : u.status = t.status := by rw [hu, withRecord_status]
  refine ⟨fun code => ⟨fun h => ?_, ?_⟩, fun h => ?_, fun hfetch => ?_⟩
  · exact exitCall_of_cycle_exits hrun hc (hstatus.symm.trans h)
  · rintro ⟨hruns, ha, rfl⟩
    rw [eq_withRecord_of_cycle hrun ((cycle_of_runs hruns).trans (exec_exitCall ha)) hstep]
    exact withRecord_status s _
  · exact fetches_zero_of_cycle_terminates hrun hc (hstatus.symm.trans h)
  · rw [eq_withRecord_of_cycle hrun (cycle_of_sentinel hfetch) hstep]
    exact withRecord_status s _

/-! ## Sequential flow (R137, R139) -/

theorem exec_pc_sequential {i : Instr} {s t : State} (hi : transfersControl i = false)
    (he : exec i s = .next t) (hk : ∀ k, t.status ≠ .trapped k) : t.pc = s.pc + 4#32 := by
  have hshape := exec_shape i s
  rw [he] at hshape
  cases hshape with
  | trap k => exact absurd rfl (hk k)
  | jump _ _ _ hjump => cases hi.symm.trans hjump
  | taken _ _ hbranch => cases hi.symm.trans hbranch
  | result => simp
  | sequential | store | exit => rfl

/-- Settles O34: the register read, and the one instruction a step runs. -/
theorem zeroRegisterAndSequentialFlow : Obligations.ZeroRegisterAndSequentialFlow := by
  refine ⟨readReg_zero, fun s u i hruns hi hstep hk => ?_⟩
  have ⟨hrun, _⟩ := hruns
  obtain ⟨t, he, -⟩ := exec_next i s
  obtain rfl := eq_withRecord_of_cycle hrun ((cycle_of_runs hruns).trans he) hstep
  rw [withRecord_status] at hk
  rw [withRecord_pc]
  exact exec_pc_sequential hi he hk

/-! ## The debug record (R140) -/

theorem exec_dump {i : Instr} {s t : State} (he : exec i s = .next t) : t.dump = s.dump := by
  have hshape := exec_shape i s
  rw [he] at hshape
  cases hshape with
  | result | jump => simp
  | trap | taken | sequential | store | exit => rfl

section
variable {s t : State}

theorem cycle_dump (hc : CycleShape s t) : t.dump = s.dump := by
  cases hc with
  | executes w i t _ _ _ he => exact exec_dump he
  | fetchFails | sentinel | illegal => rfl

/-- A cycle after which the run goes on has fetched a word. -/
theorem fetches_of_cycle_goes_on (hc : CycleShape s t) (ht : t.status = .running) :
    Fetches s (wordAt s.mem s.pc.toNat) := by
  cases hc with
  | fetchFails | sentinel | illegal => cases ht
  | executes w i t hf =>
    obtain ⟨hr, -⟩ := fetches_iff.mpr hf
    exact ⟨hr, rfl⟩

theorem dumpWord_of_fetches {w : Word} (h : Fetches s w) : dumpWord s = w := by
  rw [dumpWord, fetches_iff.mp h]

theorem withRecord_of_goes_on (hdebug : s.debug = true) (ht : t.status = .running) :
    withRecord s t = t.addDump (dumpRecord s t) := by
  simp only [withRecord, hdebug, ht, emitsRecord, Bool.and_self, if_true]

end

/-- Settles O39: no instruction touches the stream, and a step that goes on adds its own record. -/
theorem debugRecordOfAStep : Obligations.DebugRecordOfAStep := by
  intro s u hstep
  obtain ⟨-, t, hc, rfl⟩ := step_cases hstep
  refine ⟨fun hdebug => ?_, fun hdebug ht => ?_⟩
  · rw [withRecord_of_not_debug hdebug, cycle_dump hc]
  · rw [withRecord_status] at ht
    have hword := dumpWord_of_fetches (fetches_of_cycle_goes_on hc ht)
    refine ⟨dumpRecord s t, ?_, rfl, hword, fun r => ?_⟩
    · rw [withRecord_of_goes_on hdebug ht, State.addDump_dump, cycle_dump hc]
    · rw [withRecord_readReg]
      exact registerFile_get? t r

/-- With another debug input and stream a step adds its own record, and the rest is the same. -/
theorem withRecord_withDebug (debug : Bool) (dump : List DumpRecord) (s t : State) :
    withRecord (withDebug debug dump s) (withDebug debug dump t) =
      { withRecord s t with
        debug := debug
        dump := (withRecord (withDebug debug dump s) (withDebug debug dump t)).dump } := by
  rw [withRecord_eq s t]
  exact withRecord_eq _ _

/-- Settles O40: the cycle commutes with the change of debug input and stream, and a record is no
part of the rest of the state. -/
theorem debugNeverChangesTheMachine : Obligations.DebugNeverChangesTheMachine := by
  intro s u debug dump hstep
  obtain ⟨hrun, -⟩ := step_cases hstep
  obtain ⟨t, hc, -⟩ := cycle_next s
  obtain rfl := eq_withRecord_of_cycle hrun hc hstep
  have hc' : cycle (withDebug debug dump s) = .next (withDebug debug dump t) := by
    rw [cycle_withDebug, hc]
    rfl
  exact ⟨_, step_of_cycle hrun hc', withRecord_withDebug debug dump s t⟩

end Sys2Proof.Proofs

/-! # The family of 41_register_immediate.md: the OP-IMM instructions other than the shifts (R151 to
R156) -/

namespace Sys2Proof.Proofs
open Sys2Proof Sys2Proof.Machine Sys2Proof.Claims

/-! ## The model's operators and the values the statements give them (R15, R16) -/

theorem add_eq_sum (a b : Word) : a + b = sum a b :=
  BitVec.eq_of_toNat_eq (by rw [sum, BitVec.toNat_add, BitVec.toNat_ofNat])

theorem boolWord_decide (p : Prop) [Decidable p] :
    boolWord (decide p) = if p then 1#32 else 0#32 := by
  simp only [boolWord, decide_eq_true_eq]

theorem boolWord_lessSigned (a b : Word) : boolWord (lessSigned a b) = signedLess a b :=
  boolWord_decide (a.toInt < b.toInt)

theorem boolWord_lessUnsigned (a b : Word) : boolWord (lessUnsigned a b) = unsignedLess a b :=
  boolWord_decide (a.toNat < b.toNat)

/-! ## Encoding, result and frame -/

/-- An OP-IMM instruction that takes the whole 12-bit immediate is picked by funct3 alone (R102). -/
theorem decodesI_of_decodeOpImm {f3 : BitVec 3} {mk : RegIdx → RegIdx → Word → Instr}
    (h : ∀ w, funct3Of w = f3 → decodeOpImm w = .ok (mk (rdOf w) (rs1Of w) (immI w))) :
    DecodesI 0b0010011#7 f3 mk :=
  fun w hop h3 => (decode_opImm hop).trans (h w h3)

/-- Settles O8: funct3 picks the instruction, which writes one result, and the model's sum and
comparisons are those over Nat and Int. -/
theorem immediateAddAndCompare : Obligations.ImmediateAddAndCompare := by
  refine ⟨⟨?_, ?_⟩, ⟨?_, ?_⟩, ?_, ?_⟩
  · exact decodesI_of_decodeOpImm fun w h3 => by simp only [decodeOpImm, h3]
  · exact fun rd rs1 imm s => writeResult_effect s rd (add_eq_sum _ _)
  · exact decodesI_of_decodeOpImm fun w h3 => by simp only [decodeOpImm, h3]
  · exact fun rd rs1 imm s => writeResult_effect s rd (boolWord_lessSigned _ _)
  · exact decodesI_of_decodeOpImm fun w h3 => by simp only [decodeOpImm, h3]
  · exact fun rd rs1 imm s => writeResult_effect s rd (boolWord_lessUnsigned _ _)

/-- Settles O9: funct3 picks the instruction, whose one result is the bitwise operation itself. -/
theorem immediateLogic : Obligations.ImmediateLogic := by
  refine ⟨⟨?_, ?_⟩, ⟨?_, ?_⟩, ?_, ?_⟩
  · exact decodesI_of_decodeOpImm fun w h3 => by simp only [decodeOpImm, h3]
  · exact fun rd rs1 imm s => writeResult_effect s rd rfl
  · exact decodesI_of_decodeOpImm fun w h3 => by simp only [decodeOpImm, h3]
  · exact fun rd rs1 imm s => writeResult_effect s rd rfl
  · exact decodesI_of_decodeOpImm fun w h3 => by simp only [decodeOpImm, h3]
  · exact fun rd rs1 imm s => writeResult_effect s rd rfl

end Sys2Proof.Proofs

/-! # The family of 42_register_register.md: the OP instructions (R171 to R180) -/

namespace Sys2Proof.Proofs
open Sys2Proof Sys2Proof.Machine Sys2Proof.Claims

/-! ## The model's operators and the values the statements give them (R15, R170) -/

theorem sub_eq_difference (a b : Word) : a - b = difference a b :=
  BitVec.eq_of_toInt_eq (by rw [difference, BitVec.toInt_sub, BitVec.toInt_ofInt])

/-- The low five bits of a register are its value modulo 32. -/
theorem shiftAmount_eq_mod (v : Word) : shiftAmount v = v.toNat % 32 := by
  rw [shiftAmount, BitVec.extractLsb'_toNat, Nat.shiftRight_zero]

/-! ## Encoding, result and frame -/

/-- Every OP word is the R-format encoding of its own fields, so what the encoder writes with this
funct7 and funct3 is what the word decodes to (R93, R103). -/
theorem decodesR_of_encode {f7 : BitVec 7} {f3 : BitVec 3} {mk : RegIdx → RegIdx → RegIdx → Instr}
    (hwf : ∀ rd rs1 rs2, (mk rd rs1 rs2).wf = true)
    (henc : ∀ rd rs1 rs2, encode (mk rd rs1 rs2) = encodeR f7 f3 0b0110011#7 rd rs1 rs2) :
    DecodesR f7 f3 mk := by
  intro w hop h3 h7
  have hw : encode (mk (rdOf w) (rs1Of w) (rs2Of w)) = w :=
    (henc _ _ _).trans (encodeR_fields h7 h3 hop)
  have hround := decodeOfEncodeIsTheInstruction _ (hwf (rdOf w) (rs1Of w) (rs2Of w))
  rwa [hw] at hround

/-- An OP instruction that writes `g x[rs1] x[rs2]` to `rd` computes whatever function `g` is equal
to (R170). -/
theorem computesReg_of_exec {mk : RegIdx → RegIdx → RegIdx → Instr} {f g : Word → Word → Word}
    (hexec : ∀ rd rs1 rs2 s,
      exec (mk rd rs1 rs2) s = writeResult rd (g (s.readReg rs1) (s.readReg rs2)) s)
    (hvalue : ∀ a b, g a b = f a b) : ComputesReg mk f := by
  intro rd rs1 rs2 s
  rw [hexec]
  exact writeResult_effect s rd (hvalue _ _)

/-- Settles O11: the encoder gives the words, and the model's sum and difference are those modulo
2^32. -/
theorem registerAddAndSubtract : Obligations.RegisterAddAndSubtract := by
  refine ⟨⟨?add_word, ?add⟩, ?sub_word, ?sub⟩
  case add_word | sub_word => exact decodesR_of_encode (fun _ _ _ => rfl) (fun _ _ _ => rfl)
  case add => exact computesReg_of_exec (fun _ _ _ _ => rfl) add_eq_sum
  case sub => exact computesReg_of_exec (fun _ _ _ _ => rfl) sub_eq_difference

/-- Settles O12: the encoder gives the words, and the model's comparisons are those over Int and
Nat. -/
theorem registerCompare : Obligations.RegisterCompare := by
  refine ⟨⟨?slt_word, ?slt⟩, ?sltu_word, ?sltu⟩
  case slt_word | sltu_word => exact decodesR_of_encode (fun _ _ _ => rfl) (fun _ _ _ => rfl)
  case slt => exact computesReg_of_exec (fun _ _ _ _ => rfl) boolWord_lessSigned
  case sltu => exact computesReg_of_exec (fun _ _ _ _ => rfl) boolWord_lessUnsigned

/-- Settles O13: the encoder gives the words, and each result is the bitwise operation itself. -/
theorem registerLogic : Obligations.RegisterLogic := by
  refine ⟨⟨?xor_word, ?xor⟩, ⟨?or_word, ?or⟩, ?and_word, ?and⟩
  case xor_word | or_word | and_word =>
    exact decodesR_of_encode (fun _ _ _ => rfl) (fun _ _ _ => rfl)
  case xor | or | and => exact computesReg_of_exec (fun _ _ _ _ => rfl) (fun _ _ => rfl)

/-- Settles O14: the encoder gives the words, the amount is `x[rs2]` modulo 32, and each shift is the
arithmetic it stands for. -/
theorem registerShifts : Obligations.RegisterShifts := by
  refine ⟨⟨?sll_word, ?sll⟩, ⟨?srl_word, ?srl⟩, ?sra_word, ?sra⟩
  case sll_word | srl_word | sra_word =>
    exact decodesR_of_encode (fun _ _ _ => rfl) (fun _ _ _ => rfl)
  case sll =>
    exact computesReg_of_exec (fun _ _ _ _ => rfl) fun a b =>
      shiftAmount_eq_mod b ▸ shiftLeft_eq a (shiftAmount b)
  case srl =>
    exact computesReg_of_exec (fun _ _ _ _ => rfl) fun a b =>
      shiftAmount_eq_mod b ▸ ushiftRight_eq_shiftRightLogical a (shiftAmount b)
  case sra =>
    exact computesReg_of_exec (fun _ _ _ _ => rfl) fun a b =>
      shiftAmount_eq_mod b ▸ sshiftRight_eq_shiftRightArithmetic a (shiftAmount b)

end Sys2Proof.Proofs

/-! # The family of 43_upper_immediate.md: LUI and AUIPC (R190, R191) -/

namespace Sys2Proof.Proofs
open Sys2Proof Sys2Proof.Machine Sys2Proof.Claims

/-- Settles O15: the opcode alone picks the instruction, whose one result is the immediate itself or
the model's sum of it and the PC, which is the one modulo 2^32. -/
theorem upperImmediates : Obligations.UpperImmediates := by
  refine ⟨?lui_word, ?auipc_word, ?lui, ?auipc⟩
  case lui_word => exact fun w hop => decode_lui hop
  case auipc_word => exact fun w hop => decode_auipc hop
  case lui => exact fun rd imm s => writeResult_effect s rd rfl
  case auipc => exact fun rd imm s => writeResult_effect s rd (add_eq_sum s.pc imm)

end Sys2Proof.Proofs

/-! # The family of 44_control_transfer.md: JAL and JALR (R200, R201) and the six branches (R202 to
R208) -/

namespace Sys2Proof.Proofs
open Sys2Proof Sys2Proof.Machine Sys2Proof.Claims

/-! ## Jumps with link (R200, R201) -/

/-- The alignment test of a jump decides between the link and the trap. -/
theorem jumpAndLink_outcomes (rd : RegIdx) (target : Word) (s : State) :
    (target.getLsbD 1 = false → ∃ t, jumpAndLink rd target s = .next t ∧
      RegisterEffect s t rd (s.pc + 4#32) target) ∧
    (target.getLsbD 1 = true →
      jumpAndLink rd target s = .next (s.setStatus (.trapped .misalignedInstruction))) := by
  rcases jumpAndLink_cases rd target s with ⟨hm, htrap⟩ | ⟨hm, hjump⟩
  · exact ⟨fun h => (by cases h.symm.trans hm), fun _ => htrap⟩
  · exact ⟨fun _ => ⟨_, hjump, registerEffect_jump s rd _ target⟩,
      fun h => (by cases h.symm.trans hm)⟩

/-- Settles O16: the opcode alone picks the instruction, which is a jump with link to `PC + imm`. (The
name `jumpAndLink` itself is the model's operation, which this must not hide.) -/
theorem jumpAndLinkInstruction : Obligations.JumpAndLink :=
  ⟨fun _ hop => decode_jal hop, fun rd imm s => jumpAndLink_outcomes rd (s.pc + imm) s⟩

/-- The target of JALR is the sum less its bit 0: the bits above stay as they are. -/
theorem jalrTarget_toNat (s : State) (rs1 : RegIdx) (imm : Word) :
    (jalrTarget s rs1 imm).toNat =
      (s.readReg rs1 + imm).toNat - (s.readReg rs1 + imm).toNat % 2 := by
  have heven := jalrTarget_even s rs1 imm
  have hhalf : (jalrTarget s rs1 imm).toNat / 2 = (s.readReg rs1 + imm).toNat / 2 := by
    rw [jalrTarget, BitVec.toNat_and, Nat.and_div_two]
    exact (Nat.and_two_pow_sub_one_eq_mod _ 31).trans (Nat.mod_eq_of_lt (by omega))
  omega

/-- Settles O17: the opcode and funct3 pick the instruction, which is a jump with link to the target
that the state before it gives. -/
theorem jumpAndLinkRegister : Obligations.JumpAndLinkRegister := by
  refine ⟨fun w hop h3 => ?word, fun w hop h3 => ?rejected, fun rd rs1 imm target s ht => ?effect⟩
  case word => exact (decode_jalr hop).trans (if_pos h3)
  case rejected =>
    exact illegal_of_decode_error ((decode_jalr hop).trans (decodeJalr_undefined h3))
  case effect =>
    obtain rfl : target = jalrTarget s rs1 imm :=
      BitVec.eq_of_toNat_eq (ht.trans (jalrTarget_toNat s rs1 imm).symm)
    exact jumpAndLink_outcomes rd _ s

/-! ## Branches (R202 to R208) -/

/-- A BRANCH instruction is picked by funct3 alone (R104). -/
theorem decodesB_of_decodeBranch {f3 : BitVec 3} {mk : RegIdx → RegIdx → Word → Instr}
    (h : ∀ w, funct3Of w = f3 → decodeBranch w = .ok (mk (rs1Of w) (rs2Of w) (immB w))) :
    DecodesB f3 mk :=
  fun w hop h3 => (decode_branch hop).trans (h w h3)

/-- An instruction that is the model's branch under a test of `x[rs1]` and `x[rs2]` branches under
whatever condition the test decides (R202). -/
theorem branchesWhen_of_exec {mk : RegIdx → RegIdx → Word → Instr} {test : Word → Word → Bool}
    {cond : Word → Word → Prop}
    (hexec : ∀ rs1 rs2 imm s,
      exec (mk rs1 rs2 imm) s = branch (test (s.readReg rs1) (s.readReg rs2)) imm s)
    (htest : ∀ a b, test a b = true ↔ cond a b) : BranchesWhen mk cond := by
  intro rs1 rs2 imm s
  rw [Traps, hexec, ← htest]
  generalize test (s.readReg rs1) (s.readReg rs2) = taken
  rcases branch_cases taken imm s with ⟨rfl, hnext⟩ | ⟨rfl, hm, htrap⟩ | ⟨rfl, hm, htaken⟩
  · exact ⟨fun _ => ⟨_, hnext, pcEffect_advance s⟩, nofun, nofun⟩
  · exact ⟨fun h => absurd rfl h, fun _ h => (by cases h.symm.trans hm), fun _ _ => htrap⟩
  · exact ⟨fun h => absurd rfl h, fun _ _ => ⟨_, htaken, pcEffect_setPc s _⟩,
      fun _ h => (by cases h.symm.trans hm)⟩

/-! The model's tests and the conditions over Int and Nat that the statements give them (R16). -/

section
variable (a b : Word)

theorem equalWords_iff : equalWords a b = true ↔ a = b := beq_iff_eq

theorem lessSigned_iff : lessSigned a b = true ↔ a.toInt < b.toInt := decide_eq_true_iff

theorem lessUnsigned_iff : lessUnsigned a b = true ↔ a.toNat < b.toNat := decide_eq_true_iff

theorem not_equalWords_iff : (!equalWords a b) = true ↔ a ≠ b := by
  rw [Bool.not_eq_true', ← Bool.not_eq_true, equalWords_iff]

theorem not_lessSigned_iff : (!lessSigned a b) = true ↔ b.toInt ≤ a.toInt := by
  rw [Bool.not_eq_true', ← Bool.not_eq_true, lessSigned_iff, Int.not_lt]

theorem not_lessUnsigned_iff : (!lessUnsigned a b) = true ↔ b.toNat ≤ a.toNat := by
  rw [Bool.not_eq_true', ← Bool.not_eq_true, lessUnsigned_iff, Nat.not_lt]

end

/-- Settles O18: funct3 picks the instruction, which is the model's branch under its test. -/
theorem branches : Obligations.Branches := by
  refine ⟨⟨?beq_word, ?beq⟩, ⟨?bne_word, ?bne⟩, ⟨?blt_word, ?blt⟩, ⟨?bge_word, ?bge⟩,
    ⟨?bltu_word, ?bltu⟩, ?bgeu_word, ?bgeu⟩
  case beq_word | bne_word | blt_word | bge_word | bltu_word | bgeu_word =>
    exact decodesB_of_decodeBranch fun w h3 => by simp only [decodeBranch, h3]
  case beq => exact branchesWhen_of_exec (fun _ _ _ _ => rfl) equalWords_iff
  case bne => exact branchesWhen_of_exec (fun _ _ _ _ => rfl) not_equalWords_iff
  case blt => exact branchesWhen_of_exec (fun _ _ _ _ => rfl) lessSigned_iff
  case bge => exact branchesWhen_of_exec (fun _ _ _ _ => rfl) not_lessSigned_iff
  case bltu => exact branchesWhen_of_exec (fun _ _ _ _ => rfl) lessUnsigned_iff
  case bgeu => exact branchesWhen_of_exec (fun _ _ _ _ => rfl) not_lessUnsigned_iff

end Sys2Proof.Proofs

/-! # The family of 45_load_store.md: the loads (R221 to R225) and the stores (R227 to R229) -/

namespace Sys2Proof.Proofs
open Sys2Proof Sys2Proof.Machine Sys2Proof.Claims

/-! ## Encoding (R105, R106) -/

/-- A LOAD instruction is picked by funct3 alone (R105). -/
theorem decodesI_of_decodeLoad {f3 : BitVec 3} {mk : RegIdx → RegIdx → Word → Instr}
    (h : ∀ w, funct3Of w = f3 → decodeLoad w = .ok (mk (rdOf w) (rs1Of w) (immI w))) :
    DecodesI 0b0000011#7 f3 mk :=
  fun w hop h3 => (decode_load hop).trans (h w h3)

/-- A STORE instruction is picked by funct3 alone (R106). -/
theorem decodesS_of_decodeStore {f3 : BitVec 3} {mk : RegIdx → RegIdx → Word → Instr}
    (h : ∀ w, funct3Of w = f3 → decodeStore w = .ok (mk (rs1Of w) (rs2Of w) (immS w))) :
    DecodesS f3 mk :=
  fun w hop h3 => (decode_store hop).trans (h w h3)

/-! ## Effect and trap of one access (R220, R226) -/

/-- An instruction that is the model's load at `x[rs1] + imm` loads whatever value its extension of
the read is equal to (R220). -/
theorem loads_of_exec {mk : RegIdx → RegIdx → Word → Instr} {w : Width}
    {extend : BitVec w.bits → Word} {value : Memory → Nat → Word}
    (hexec : ∀ rd rs1 imm s,
      exec (mk rd rs1 imm) s = loadInto w extend rd (effectiveAddress s rs1 imm) s)
    (hvalue : ∀ m a, extend (m.read a w) = value m a) : Loads mk w.bytes value := by
  rintro rd rs1 imm s a rfl
  rw [Traps, hexec, ← hvalue]
  rcases loadInto_cases w extend rd (effectiveAddress s rs1 imm) s with ⟨hout, htrap⟩ | ⟨hin, hload⟩
  · exact ⟨fun h => absurd h (Nat.not_le_of_lt hout), fun _ => htrap⟩
  · exact ⟨fun _ => ⟨_, hload, registerEffect_result s rd _⟩,
      fun h => absurd hin (Nat.not_le_of_lt h)⟩

/-- An instruction that is the model's store of `x[rs2]` at `x[rs1] + imm` stores the bytes of its
width (R226). -/
theorem stores_of_exec {mk : RegIdx → RegIdx → Word → Instr} {w : Width}
    (hexec : ∀ rs1 rs2 imm s,
      exec (mk rs1 rs2 imm) s = storeFrom w (effectiveAddress s rs1 imm) (s.readReg rs2) s) :
    Stores mk w.bytes := by
  rintro rs1 rs2 imm s a rfl
  rw [Traps, hexec]
  rcases storeFrom_cases w (effectiveAddress s rs1 imm) (s.readReg rs2) s with
    ⟨hout, htrap⟩ | ⟨hin, hstore⟩
  · exact ⟨fun h => absurd h (Nat.not_le_of_lt hout), fun _ => htrap⟩
  · exact ⟨fun _ => ⟨_, hstore, storeEffect_store s _ _ _⟩,
      fun h => absurd hin (Nat.not_le_of_lt h)⟩

/-! ## The values of the zero-extending loads (R17, R62) -/

theorem zext32_eq_ofNat_toNat {n : Nat} (v : BitVec n) : zext32 v = BitVec.ofNat 32 v.toNat :=
  (BitVec.ofNat_toNat 32 v).symm

/-- Two bytes side by side, as arithmetic: the left one counts in units of 256. -/
theorem toNat_append_byte (high low : Byte) :
    (high ++ low).toNat = high.toNat * 256 + low.toNat := by
  rw [BitVec.toNat_append, ← Nat.shiftLeft_add_eq_or_of_lt low.isLt, Nat.shiftLeft_eq]

theorem zext32_read_half (m : Memory) (a : Nat) :
    zext32 (m.read a .half) =
      BitVec.ofNat 32 ((m.readByte (a + 1)).toNat * 256 + (m.readByte a).toNat) :=
  (zext32_eq_ofNat_toNat _).trans (congrArg (BitVec.ofNat 32) (toNat_append_byte _ _))

/-- A word already has the 32 bits it is extended to. -/
theorem zext32_read_word (m : Memory) (a : Nat) : zext32 (m.read a .word) = wordAt m a :=
  BitVec.setWidth_eq _

/-- Settles O19: funct3 picks the instruction, which is the model's load of its width and
extension. -/
theorem loadsExtendWhatMemoryHolds : Obligations.LoadsExtendWhatMemoryHolds := by
  refine ⟨⟨?lb_word, ?lb⟩, ⟨?lh_word, ?lh⟩, ⟨?lw_word, ?lw⟩, ⟨?lbu_word, ?lbu⟩, ?lhu_word, ?lhu⟩
  case lb_word | lh_word | lw_word | lbu_word | lhu_word =>
    exact decodesI_of_decodeLoad fun w h3 => by simp only [decodeLoad, h3]
  case lb => exact loads_of_exec (w := .byte) (extend := sext32) (fun _ _ _ _ => rfl) fun _ _ => rfl
  case lh => exact loads_of_exec (w := .half) (extend := sext32) (fun _ _ _ _ => rfl) fun _ _ => rfl
  case lw => exact loads_of_exec (w := .word) (fun _ _ _ _ => rfl) zext32_read_word
  case lbu => exact loads_of_exec (w := .byte) (fun _ _ _ _ => rfl) fun _ _ => zext32_eq_ofNat_toNat _
  case lhu => exact loads_of_exec (w := .half) (fun _ _ _ _ => rfl) zext32_read_half

/-- Settles O20: funct3 picks the instruction, which is the model's store of its width. -/
theorem storesWriteTheirBytesOnly : Obligations.StoresWriteTheirBytesOnly := by
  refine ⟨⟨?sb_word, ?sb⟩, ⟨?sh_word, ?sh⟩, ?sw_word, ?sw⟩
  case sb_word | sh_word | sw_word =>
    exact decodesS_of_decodeStore fun w h3 => by simp only [decodeStore, h3]
  case sb => exact stores_of_exec (w := .byte) fun _ _ _ _ => rfl
  case sh => exact stores_of_exec (w := .half) fun _ _ _ _ => rfl
  case sw => exact stores_of_exec (w := .word) fun _ _ _ _ => rfl

end Sys2Proof.Proofs

/-! # The family of 46_system_fence.md: FENCE, EBREAK and ECALL (R240 to R242) -/

namespace Sys2Proof.Proofs
open Sys2Proof Sys2Proof.Machine Sys2Proof.Claims

/-! ## The one word of an instruction -/

/-- Exactly one word decodes to a well-formed instruction: its encoding. -/
theorem decode_eq_ok_iff {w : Word} {i : Instr} (hwf : i.wf = true) :
    decode w = .ok i ↔ w = encode i :=
  ⟨fun h => (encode_of_decode h).symm, fun h => h ▸ decodeOfEncodeIsTheInstruction i hwf⟩

/-! ## ECALL (R240) -/

/-- The exit call's number, read unsigned, is 93: the comparison is of the whole register. -/
theorem eq_exitSyscall_iff {v : Word} : v = Config.exitSyscall ↔ v.toNat = 93 :=
  BitVec.toNat_inj.symm

theorem exec_unsupportedSyscall {s : State} (ha : s.readReg a7 ≠ Config.exitSyscall) :
    exec .ecall s = raise .unsupportedSyscall s :=
  if_neg ha

/-! ## The obligations -/

/-- Settles O25: the MISC-MEM decoder tests funct3 alone, and FENCE is the plain advance of the PC. -/
theorem fenceOnlyAdvances : Obligations.FenceOnlyAdvances := by
  refine ⟨fun w hop h3 => ?word, systemWordsAreExactlyTwo.2, fun _ _ _ s => ?effect⟩
  case word => exact (decode_miscMem hop).trans (if_pos h3)
  case effect => exact ⟨s.advance, rfl, pcEffect_advance s⟩

/-- Settles O26: EBREAK has no operand, so one word, and its execution is the trap entry itself. -/
theorem ebreakTrapsAsBreakpoint : Obligations.EbreakTrapsAsBreakpoint :=
  ⟨fun _ => decode_eq_ok_iff rfl, fun _ => rfl⟩

/-- Settles O27: ECALL has no operand, so one word, and its one test of `a7` picks the exit or the
trap. -/
theorem ecallExitsOrTraps : Obligations.EcallExitsOrTraps := by
  refine ⟨fun w => decode_eq_ok_iff rfl, fun s => ⟨fun ha => ?exits, fun ha => ?traps⟩⟩
  case exits => exact exec_exitCall (eq_exitSyscall_iff.mpr ha)
  case traps => exact exec_unsupportedSyscall (mt eq_exitSyscall_iff.mp ha)

end Sys2Proof.Proofs

/-! # The family of 60_exceptions.md: the six trap kinds and what raises each (R260, R263), and what a
trap leaves unchanged (R264) -/

namespace Sys2Proof.Proofs
open Sys2Proof Sys2Proof.Machine Sys2Proof.Claims

/-! ## Every trap is precise (R264) -/

section
variable {s t : State} {k : TrapKind}

/-- From a running state only the trap entry leaves a trap status. -/
theorem traps_of_exec_status {i : Instr} (hrun : s.status = .running) (he : exec i s = .next t)
    (ht : t.status = .trapped k) : Traps i s k := by
  have hshape := exec_shape i s
  rw [Traps, he]
  rw [he] at hshape
  cases hshape with
  | trap => cases ht; rfl
  | exit => cases ht
  | result | jump | taken | sequential | store => simp [hrun] at ht

theorem eq_setStatus_of_cycle_traps (hrun : s.status = .running) (hc : CycleShape s t)
    (ht : t.status = .trapped k) : t = s.setStatus (.trapped k) := by
  cases hc with
  | fetchFails | illegal => cases ht; rfl
  | sentinel => cases ht
  | executes w i t _ _ _ he =>
    exact Host.Outcome.next.inj (he.symm.trans (traps_of_exec_status hrun he ht))

end

/-- Settles O31: a cycle that traps is the trap entry, and the step adds at most its record. -/
theorem trapsArePrecise : Obligations.TrapsArePrecise := by
  intro s u k hstep hu
  obtain ⟨hrun, t, hc, rfl⟩ := step_cases hstep
  rw [withRecord_status] at hu
  rw [eq_setStatus_of_cycle_traps hrun hc hu]
  exact sameButDump_withRecord s _

/-! ## When each shared operation enters a trap -/

section
variable {s : State} {j k : TrapKind}

theorem raise_eq_raise_iff : raise j s = raise k s ↔ j = k :=
  ⟨fun h => RunStatus.trapped.inj (congrArg State.status (Host.Outcome.next.inj h)),
    fun h => h ▸ rfl⟩

variable (hrun : s.status = .running)
include hrun

theorem next_ne_raise {t : State} (ht : t.status = s.status) : (.next t : Result) ≠ raise k s := by
  intro h
  cases hrun.symm.trans (ht.symm.trans (congrArg State.status (Host.Outcome.next.inj h)))

theorem jumpAndLink_eq_raise_iff {rd : RegIdx} {target : Word} :
    jumpAndLink rd target s = raise k s ↔
      .misalignedInstruction = k ∧ misaligned target = true := by
  rcases jumpAndLink_cases rd target s with ⟨hm, h⟩ | ⟨hm, h⟩ <;> rw [h, hm]
  · exact raise_eq_raise_iff.trans (and_iff_left rfl).symm
  · exact iff_of_false (next_ne_raise hrun (by simp)) nofun

theorem branch_eq_raise_iff {taken : Bool} {imm : Word} :
    branch taken imm s = raise k s ↔
      .misalignedInstruction = k ∧ taken = true ∧ misaligned (pcRelative s imm) = true := by
  rcases branch_cases taken imm s with ⟨rfl, h⟩ | ⟨rfl, hm, h⟩ | ⟨rfl, hm, h⟩ <;> rw [h]
  · exact iff_of_false (next_ne_raise hrun rfl) nofun
  · exact raise_eq_raise_iff.trans (and_iff_left ⟨rfl, hm⟩).symm
  · rw [hm]
    exact iff_of_false (next_ne_raise hrun rfl) nofun

theorem loadInto_eq_raise_iff {w : Width} {extend : BitVec w.bits → Word} {rd : RegIdx} {ea : Word} :
    loadInto w extend rd ea s = raise k s ↔
      .memoryOutOfRange = k ∧ s.mem.size < ea.toNat + w.bytes := by
  rcases loadInto_cases w extend rd ea s with ⟨hr, h⟩ | ⟨hr, h⟩ <;> rw [h]
  · exact raise_eq_raise_iff.trans (and_iff_left hr).symm
  · exact iff_of_false (next_ne_raise hrun (by simp)) fun ⟨_, hout⟩ => Nat.not_le_of_lt hout hr

theorem storeFrom_eq_raise_iff {w : Width} {ea v : Word} :
    storeFrom w ea v s = raise k s ↔
      .memoryOutOfRange = k ∧ s.mem.size < ea.toNat + w.bytes := by
  rcases storeFrom_cases w ea v s with ⟨hr, h⟩ | ⟨hr, h⟩ <;> rw [h]
  · exact raise_eq_raise_iff.trans (and_iff_left hr).symm
  · exact iff_of_false (next_ne_raise hrun rfl) fun ⟨_, hout⟩ => Nat.not_le_of_lt hout hr

end

/-! ## When each instruction traps, in the statements' own terms -/

section
variable {s : State} {i : Instr} {k : TrapKind}

/-- What transfers control in some state is a jump or a branch. -/
theorem transfersControl_of_target {target : Word} (ht : transferTarget s i = some target) :
    transfersControl i = true := by
  cases i with
  | jal | jalr | beq | bne | blt | bge | bltu | bgeu => rfl
  | _ => cases ht

/-- A branch traps exactly at the misaligned target it transfers to: not taken, it has none. -/
theorem branch_eq_raise_iff_target (hrun : s.status = .running) {taken : Bool} {imm : Word}
    (ht : transferTarget s i = if taken = true then some (s.pc + imm) else none) :
    branch taken imm s = raise k s ↔ .misalignedInstruction = k ∧
      ∃ target, transferTarget s i = some target ∧ target.getLsbD 1 = true := by
  rw [branch_eq_raise_iff hrun, ht]
  cases taken <;> simp [misaligned, pcRelative]

/-- A jump or a branch traps exactly at a misaligned target (R200 to R202). -/
theorem transfer_traps_iff (hrun : s.status = .running) (hc : transfersControl i = true) :
    Traps i s k ↔ .misalignedInstruction = k ∧
      ∃ target, transferTarget s i = some target ∧ target.getLsbD 1 = true := by
  cases i with
  | jal | jalr =>
    refine (jumpAndLink_eq_raise_iff hrun).trans (and_congr_right fun _ => ?_)
    refine ⟨fun hm => ⟨_, rfl, hm⟩, ?_⟩
    rintro ⟨_, ⟨⟩, hm⟩
    exact hm
  | beq | bne => exact branch_eq_raise_iff_target hrun (by simp [transferTarget, equalWords])
  | blt | bge =>
    exact branch_eq_raise_iff_target hrun
      (by simp only [transferTarget, lessSigned_iff, not_lessSigned_iff, ← Int.not_lt, ite_not])
  | bltu | bgeu =>
    exact branch_eq_raise_iff_target hrun
      (by simp only [transferTarget, lessUnsigned_iff, not_lessUnsigned_iff, ← Nat.not_lt, ite_not])
  | _ => cases hc

/-- A load or a store traps exactly out of range (R220, R226). -/
theorem access_traps_iff (hrun : s.status = .running) {a n : Nat}
    (ha : dataAccess s i = some (a, n)) :
    Traps i s k ↔ .memoryOutOfRange = k ∧ s.mem.size < a + n := by
  cases i with
  | lb | lh | lw | lbu | lhu => cases ha; exact loadInto_eq_raise_iff hrun
  | sb | sh | sw => cases ha; exact storeFrom_eq_raise_iff hrun
  | _ => cases ha

/-- ECALL traps exactly when it is no exit call (R240). -/
theorem ecall_traps_iff :
    Traps .ecall s k ↔ .unsupportedSyscall = k ∧ s.readReg 17#5 ≠ 93#32 := by
  by_cases ha : s.readReg a7 = Config.exitSyscall
  · refine iff_of_false (fun h => ?_) fun ⟨_, hne⟩ => hne ha
    cases congrArg State.status (Host.Outcome.next.inj ((exec_exitCall ha).symm.trans h))
  · rw [Traps, exec_unsupportedSyscall ha]
    exact raise_eq_raise_iff.trans (and_iff_left ha).symm

end

/-! ## The causes of a trap (R260) -/

/-- What must hold of the state before for its step to raise this kind, as R260 lists it. -/
def TrapCause (s : State) : TrapKind → Prop
  | .fetchOutOfRange => s.mem.size < s.pc.toNat + 4
  | .illegalInstruction => ∃ w, Fetches s w ∧ w ≠ 0#32 ∧ Rejected w
  | .misalignedInstruction =>
    ∃ i target, Runs s i ∧ transferTarget s i = some target ∧ target.getLsbD 1 = true
  | .memoryOutOfRange =>
    ∃ i a n, Runs s i ∧ dataAccess s i = some (a, n) ∧ s.mem.size < a + n
  | .unsupportedSyscall => Runs s .ecall ∧ s.readReg 17#5 ≠ 93#32
  | .breakpoint => Runs s .ebreak

section
variable {s t : State} {i : Instr} {k : TrapKind}

theorem trapCause_of_instr_traps (hruns : Runs s i) (h : Traps i s k) : TrapCause s k := by
  have ⟨hrun, _⟩ := hruns
  cases i with
  | jal | jalr | beq | bne | blt | bge | bltu | bgeu =>
    obtain ⟨rfl, target, ht, hm⟩ := (transfer_traps_iff hrun rfl).mp h
    exact ⟨_, target, hruns, ht, hm⟩
  | lb | lh | lw | lbu | lhu | sb | sh | sw =>
    obtain ⟨rfl, hr⟩ := (access_traps_iff hrun rfl).mp h
    exact ⟨_, _, _, hruns, rfl, hr⟩
  | ecall =>
    obtain ⟨rfl, ha⟩ := ecall_traps_iff.mp h
    exact ⟨hruns, ha⟩
  | ebreak =>
    obtain rfl := raise_eq_raise_iff.mp h
    exact hruns
  | _ => exact absurd h (next_ne_raise hrun (by simp))

theorem trapCause_of_cycle_traps (hrun : s.status = .running) (hc : CycleShape s t)
    (ht : t.status = .trapped k) : TrapCause s k := by
  cases hc with
  | fetchFails hf =>
    cases ht
    exact fetch_eq_none_iff.mp hf
  | sentinel => cases ht
  | illegal w hf hw r hd =>
    cases ht
    exact ⟨w, fetches_iff.mpr hf, hw, r, hd⟩
  | executes w i t hf _ hd he =>
    exact trapCause_of_instr_traps ⟨hrun, w, fetches_iff.mpr hf, hd⟩
      (traps_of_exec_status hrun he ht)

theorem stepEnds_of_runs_traps (hruns : Runs s i) (h : Traps i s k) : StepEnds s (.trapped k) := by
  have ⟨hrun, _⟩ := hruns
  exact stepEnds_of_cycle hrun ((cycle_of_runs hruns).trans h)

theorem stepEnds_of_trapCause (hrun : s.status = .running) (h : TrapCause s k) :
    StepEnds s (.trapped k) := by
  obtain ⟨hfetch, -, hillegal⟩ := fetchSentinelAndDecodeEndTheRun s hrun
  cases k with
  | fetchOutOfRange => exact hfetch h
  | illegalInstruction =>
    obtain ⟨w, hf, hw, hrejected⟩ := h
    exact hillegal w hf hw hrejected
  | misalignedInstruction =>
    obtain ⟨i, target, hruns, ht, hm⟩ := h
    exact stepEnds_of_runs_traps hruns
      ((transfer_traps_iff hrun (transfersControl_of_target ht)).mpr ⟨rfl, target, ht, hm⟩)
  | memoryOutOfRange =>
    obtain ⟨i, a, n, hruns, ha, hr⟩ := h
    exact stepEnds_of_runs_traps hruns ((access_traps_iff hrun ha).mpr ⟨rfl, hr⟩)
  | unsupportedSyscall =>
    obtain ⟨hruns, ha⟩ := h
    exact stepEnds_of_runs_traps hruns (ecall_traps_iff.mpr ⟨rfl, ha⟩)
  | breakpoint => exact stepEnds_of_runs_traps h rfl

/-- What `StepEnds` says of the status after. -/
theorem status_of_stepEnds {u : State} {st : RunStatus} (h : StepEnds s st)
    (hstep : step s = .next u) : u.status = st := by
  obtain ⟨v, hv, hsame⟩ := h
  obtain rfl := Host.Outcome.next.inj (hv.symm.trans hstep)
  rcases hsame with rfl | ⟨-, d, rfl⟩ <;> rfl

theorem step_traps_iff_trapCause {u : State} (hstep : step s = .next u) :
    u.status = .trapped k ↔ TrapCause s k := by
  obtain ⟨hrun, t, hc, hu⟩ := step_cases hstep
  refine ⟨fun h => ?_, fun h => status_of_stepEnds (stepEnds_of_trapCause hrun h) hstep⟩
  rw [hu, withRecord_status] at h
  exact trapCause_of_cycle_traps hrun hc h

end

/-- Settles O32: the six clauses are `TrapCause` at the six kinds. -/
theorem trapKindsHaveExactlyTheirCauses : Obligations.TrapKindsHaveExactlyTheirCauses := by
  intro s u _ hstep
  have hcause (k : TrapKind) := step_traps_iff_trapCause (k := k) hstep
  exact ⟨hcause _, hcause _, hcause _, hcause _, hcause _, hcause _⟩

end Sys2Proof.Proofs

/-! # The family of 70_reset_and_hazards.md: construction and reset (R301 to R303); and the statements of
30_encoding.md about the rows of spec/opcode_table.json and the spec's sample words -/

namespace Sys2Proof.Proofs
open Sys2Proof Sys2Proof.Machine Sys2Proof.Claims

/-! ## The reset state (R303) -/

theorem reset_readReg (r : RegIdx) : State.reset.readReg r = 0#32 := by
  unfold State.readReg
  split
  · rfl
  · exact Vector.getElem_replicate r.isLt

/-- Settles O38: the memory lists no cell, and the other three clauses are read off the reset values. -/
theorem resetMeetsTheInvariant : Obligations.ResetMeetsTheInvariant :=
  ⟨reset_mem_wf, rfl, rfl, rfl⟩

/-- Settles O42: an unlisted byte reads 0, and placing no image adds no cell. -/
theorem resetState : Obligations.ResetState :=
  ⟨reset_readReg, rfl, fun _ => rfl, rfl, rfl⟩

/-! ## Construction (R301, R302) -/

/-- The memory of a constructed block: the image from address 0 on, nothing written above it. -/
def imageMemory (image : List Byte) (memSize : Nat) : Memory :=
  ({ size := memSize, cells := [] } : Memory).place 0 image

section
variable {image : List Byte} {memSize : Nat}

theorem construct_tooLarge {debug : Bool} (hsize : memSize ≤ Config.maxMemSize)
    (hlong : memSize < image.length) : construct image memSize debug = .error .imageTooLarge := by
  rw [construct, if_neg (Nat.not_lt.mpr hsize), if_pos hlong]

theorem construct_fits {debug : Bool} (hsize : memSize ≤ Config.maxMemSize)
    (hfits : image.length ≤ memSize) : construct image memSize debug =
      .ok { State.reset with mem := imageMemory image memSize, debug := debug } := by
  rw [construct, if_neg (Nat.not_lt.mpr hsize), if_neg (Nat.not_lt.mpr hfits)]
  rfl

theorem readByte_imageMemory (a : Nat) :
    (imageMemory image memSize).readByte a = image.getD a 0#8 := by
  rw [imageMemory, readByte_place, Nat.zero_add, Nat.sub_zero]
  split
  · rfl
  · exact (List.getD_eq_default _ _ (by omega)).symm

theorem imageMemory_size : (imageMemory image memSize).size = memSize := place_size _ _ _

theorem imageMemory_wf (hsize : memSize ≤ Config.maxMemSize) (hfits : image.length ≤ memSize) :
    (imageMemory image memSize).wf = true := by
  have hblank : ({ size := memSize, cells := [] } : Memory).wf = true :=
    (Memory.wf_iff _).mpr ⟨hsize, .nil, nofun⟩
  exact place_wf hblank (by simpa using hfits)

end

/-- Settles O41: the length test decides, and what is built is the reset state with the image in its
memory and the DEBUG given. -/
theorem constructionPlacesTheImage : Obligations.ConstructionPlacesTheImage := by
  intro image memSize debug hsize
  refine ⟨construct_tooLarge hsize, fun hfits => ⟨_, construct_fits hsize hfits, fun a h => ?inside,
    fun a h => ?above, imageMemory_size, reset_readReg, rfl, rfl, rfl, rfl, ?inv⟩⟩
  case inside => exact (readByte_imageMemory a).trans (List.getD_eq_getElem _ _ h)
  case above => exact (readByte_imageMemory a).trans (List.getD_eq_default _ _ h)
  case inv =>
    obtain ⟨-, hslot, hpc, hcode⟩ := resetMeetsTheInvariant
    exact ⟨imageMemory_wf hsize hfits, hslot, hpc, hcode⟩

/-! ## The masks of the opcode table (R101 to R110) -/

/-- R-format words meet field by field. -/
theorem encodeR_and (f7 m7 : BitVec 7) (f3 m3 : BitVec 3) (op mop : BitVec 7)
    (rd mrd rs1 mrs1 rs2 mrs2 : RegIdx) :
    encodeR f7 f3 op rd rs1 rs2 &&& encodeR m7 m3 mop mrd mrs1 mrs2 =
      encodeR (f7 &&& m7) (f3 &&& m3) (op &&& mop) (rd &&& mrd) (rs1 &&& mrs1) (rs2 &&& mrs2) := by
  simp only [encodeR, ← BitVec.and_append]

section
variable (w : Word)

/-- A mask without operand bits keeps what it has of funct7, funct3 and the opcode. -/
theorem and_fieldMask (m7 : BitVec 7) (m3 : BitVec 3) (mop : BitVec 7) :
    w &&& encodeR m7 m3 mop 0#5 0#5 0#5 =
      encodeR (funct7Of w &&& m7) (funct3Of w &&& m3) (opcodeOf w &&& mop) 0#5 0#5 0#5 := by
  conv_lhs => rw [← encodeR_fields (w := w) rfl rfl rfl]
  simp only [encodeR_and, BitVec.and_zero]

theorem and_opcodeMask : w &&& 0x0000007f#32 = encodeR 0#7 0#3 (opcodeOf w) 0#5 0#5 0#5 := by
  have h := and_fieldMask w 0#7 0#3 (BitVec.allOnes 7)
  rwa [BitVec.and_zero, BitVec.and_zero, BitVec.and_allOnes] at h

theorem and_funct3Mask :
    w &&& 0x0000707f#32 = encodeR 0#7 (funct3Of w) (opcodeOf w) 0#5 0#5 0#5 := by
  have h := and_fieldMask w 0#7 (BitVec.allOnes 3) (BitVec.allOnes 7)
  rwa [BitVec.and_zero, BitVec.and_allOnes, BitVec.and_allOnes] at h

theorem and_funct7Mask :
    w &&& 0xfe00707f#32 = encodeR (funct7Of w) (funct3Of w) (opcodeOf w) 0#5 0#5 0#5 := by
  have h := and_fieldMask w (BitVec.allOnes 7) (BitVec.allOnes 3) (BitVec.allOnes 7)
  rwa [BitVec.and_allOnes, BitVec.and_allOnes, BitVec.and_allOnes] at h

end

section
variable {w v : Word}

theorem opcode_of_and (h : w &&& 0x0000007f#32 = v) : opcodeOf w = opcodeOf v := by
  rw [← h, and_opcodeMask]
  simp only [fields_encodeR]

theorem opcode_funct3_of_and (h : w &&& 0x0000707f#32 = v) :
    opcodeOf w = opcodeOf v ∧ funct3Of w = funct3Of v := by
  rw [← h, and_funct3Mask]
  simp only [fields_encodeR, and_self]

theorem opcode_funct3_funct7_of_and (h : w &&& 0xfe00707f#32 = v) :
    opcodeOf w = opcodeOf v ∧ funct3Of w = funct3Of v ∧ funct7Of w = funct7Of v := by
  rw [← h, and_funct7Mask]
  simp only [fields_encodeR, and_self]

end

/-- The fields an encoding does not take from its operands are those of its row. -/
theorem encode_matches_row (i : Instr) : encode i &&& rowMask i = rowMatch i := by
  cases i with
  | addi | slti | sltiu | xori | ori | andi | jalr | lb | lh | lw | lbu | lhu | fence =>
    simp only [encode, encodeImm, rowMask, and_funct3Mask, fields_encodeI]
    rfl
  | sb | sh | sw =>
    simp only [encode, rowMask, and_funct3Mask, fields_encodeS]
    rfl
  | beq | bne | blt | bge | bltu | bgeu =>
    simp only [encode, rowMask, and_funct3Mask, fields_encodeB]
    rfl
  | slli | srli | srai | add | sub | sll | slt | sltu | xor | srl | sra | or | and =>
    simp only [encode, encodeShift, rowMask, and_funct7Mask, fields_encodeR]
    rfl
  | lui | auipc =>
    simp only [encode, rowMask, and_opcodeMask, fields_encodeU]
    rfl
  | jal =>
    simp only [encode, rowMask, and_opcodeMask, fields_encodeJ]
    rfl
  | ecall | ebreak => rfl

/-- Each decoder tests only fields that the mask of the row covers. -/
theorem decode_of_matches {w : Word} {i : Instr} (h : w &&& rowMask i = rowMatch i) :
    ∃ j, decode w = .ok j ∧ rowMask j = rowMask i ∧ rowMatch j = rowMatch i := by
  cases i <;> simp only [rowMask, rowMatch] at h
  case lui => exact ⟨_, decode_lui (opcode_of_and h), rfl, rfl⟩
  case auipc => exact ⟨_, decode_auipc (opcode_of_and h), rfl, rfl⟩
  case jal => exact ⟨_, decode_jal (opcode_of_and h), rfl, rfl⟩
  case jalr =>
    obtain ⟨hop, h3⟩ := opcode_funct3_of_and h
    rw [decode_jalr hop, decodeJalr, h3]
    exact ⟨_, rfl, rfl, rfl⟩
  case beq | bne | blt | bge | bltu | bgeu =>
    obtain ⟨hop, h3⟩ := opcode_funct3_of_and h
    rw [decode_branch hop, decodeBranch, h3]
    exact ⟨_, rfl, rfl, rfl⟩
  case lb | lh | lw | lbu | lhu =>
    obtain ⟨hop, h3⟩ := opcode_funct3_of_and h
    rw [decode_load hop, decodeLoad, h3]
    exact ⟨_, rfl, rfl, rfl⟩
  case sb | sh | sw =>
    obtain ⟨hop, h3⟩ := opcode_funct3_of_and h
    rw [decode_store hop, decodeStore, h3]
    exact ⟨_, rfl, rfl, rfl⟩
  case addi | slti | sltiu | xori | ori | andi =>
    obtain ⟨hop, h3⟩ := opcode_funct3_of_and h
    rw [decode_opImm hop, decodeOpImm, h3]
    exact ⟨_, rfl, rfl, rfl⟩
  case slli | srli | srai =>
    obtain ⟨hop, h3, h7⟩ := opcode_funct3_funct7_of_and h
    rw [decode_opImm hop, decodeOpImm, h3, h7]
    exact ⟨_, rfl, rfl, rfl⟩
  case add | sub | sll | slt | sltu | xor | srl | sra | or | and =>
    obtain ⟨hop, h3, h7⟩ := opcode_funct3_funct7_of_and h
    rw [decode_op hop, decodeOp, h3, h7]
    exact ⟨_, rfl, rfl, rfl⟩
  case fence =>
    obtain ⟨hop, h3⟩ := opcode_funct3_of_and h
    rw [decode_miscMem hop, decodeMiscMem, h3]
    exact ⟨_, rfl, rfl, rfl⟩
  case ecall | ebreak =>
    obtain rfl : w = _ := BitVec.and_allOnes.symm.trans h
    exact ⟨_, rfl, rfl, rfl⟩

/-- Settles O3: what decodes is an encoding, which matches its row, and a word that matches a row has
every field the decoder tests for it. -/
theorem decoderFollowsTheOpcodeTable : Obligations.DecoderFollowsTheOpcodeTable := by
  refine ⟨fun w i h => ?_, fun _ _ => decode_of_matches⟩
  rw [← encode_of_decode h]
  exact encode_matches_row i

/-- Settles O7: the decoder is evaluated on each of the ten words. -/
theorem sampleWordsDecode : Obligations.SampleWordsDecode :=
  ⟨rfl, rfl, rfl, rfl, rfl, rfl, rfl, rfl, rfl, rfl⟩

end Sys2Proof.Proofs
